-- ==== Sys2Proof/Word.lean ====
section
/-! DEFINITION. The value types of the core: the Word (R4) and the byte of the I/O ports (R110, R111). -/

namespace Sys2Proof

/-- The machine's only value type, used for data, addresses, opcodes and literals: a signed 32-bit integer, held as its
two's-complement pattern (R4). `BitVec.toInt` reads it as the signed number. -/
abbrev Word := BitVec 32

/-- One value of the byte streams, 0..255 (R110, R111). -/
abbrev Byte := BitVec 8

end Sys2Proof
end

