-- ==== Sys2Proof/Config.lean ====
section
/-! DEFINITION. The implementation parameters (R5 to R10), as plain data, and the free values of the model. -/

namespace Sys2Proof

/-- The 15 opcodes, in the order of the opcode table (R72). -/
inductive Opcode where
  | nop | add | sub | and | or | xor | not | inp | out | load | stor | jmp | jz | push | dup
deriving DecidableEq, Repr

/-- Every opcode, in table order (R72). -/
def Opcode.all : List Opcode :=
  [.nop, .add, .sub, .and, .or, .xor, .not, .inp, .out, .load, .stor, .jmp, .jz, .push, .dup]

/-- Parameter OPCODE_MAP (R8): the numeric Word of each opcode. -/
structure OpcodeMap where
  nop : Word
  add : Word
  sub : Word
  and : Word
  or : Word
  xor : Word
  not : Word
  inp : Word
  out : Word
  load : Word
  stor : Word
  jmp : Word
  jz : Word
  push : Word
  dup : Word
deriving DecidableEq, Repr

/-- The Word that a map gives an opcode. -/
def OpcodeMap.value (m : OpcodeMap) : Opcode → Word
  | .nop => m.nop
  | .add => m.add
  | .sub => m.sub
  | .and => m.and
  | .or => m.or
  | .xor => m.xor
  | .not => m.not
  | .inp => m.inp
  | .out => m.out
  | .load => m.load
  | .stor => m.stor
  | .jmp => m.jmp
  | .jz => m.jz
  | .push => m.push
  | .dup => m.dup

/-- Parameter BOUNDS_MODE (R7). -/
inductive BoundsMode where
  | strict        -- an address must be < N
  | referenceLe   -- an address must be <= N
deriving DecidableEq, Repr

/-- The parameters of one machine, fixed for its lifetime (R20). The model carries them in State, so that a statement
about every state is about every machine; no step changes them (DESIGN CHOICE, safe, log 1). -/
structure Config where
  /-- N, the number of Words of Memory (R5) -/
  memSize : Nat
  /-- STRIDE, the address units of one program slot (R6) -/
  stride : Nat
  /-- BOUNDS_MODE (R7) -/
  boundsMode : BoundsMode
  /-- OPCODE_MAP (R8) -/
  opcodeMap : OpcodeMap
  /-- STACK_CAPACITY (R9); `none` is UNBOUNDED -/
  stackCapacity : Option Nat
  /-- TRACE_ENABLED (R10) -/
  traceEnabled : Bool
deriving DecidableEq, Repr

/-- FREE VALUE (R153, D12, U13): what the operand stack holds after the `n`-th fatal error. The spec does not say, so this
has no body and nothing can be proved of it (log 4). -/
opaque Config.freeStack : Nat → List Word

/-- What `in_resp` carries: a byte, or EOS (R110). -/
inductive Machine.InAnswer where
  | byte (b : Byte)
  | eos
deriving DecidableEq, Repr

/-- FREE VALUE (R115): the `n`-th byte of an infinite input. Which byte it is, is the host's (D10), so this has no body (log 5).
-/
opaque Config.freeByte : Nat → Byte

/-- FREE VALUE (R110, R112): what a host of which nothing is known does at the `n`-th poll of the input port: answer a byte or
EOS, or not answer yet. It has no body (U16, log 5). -/
opaque Config.freeAnswer : Nat → Option Machine.InAnswer

/-- FREE VALUE (R111, R112): whether a host of which nothing is known accepts the byte at the `n`-th poll of the output port. It
has no body (U17, log 5). -/
opaque Config.freeAccept : Nat → Bool

end Sys2Proof
end

