-- ==== Sys2Proof/Machine/Params.lean ====
section
/-! DEFINITION. The reference values of the parameters (the parameter summary of 00_scope.md). They are in a file of their
own so that a test that shows another numbering can mend them. -/

namespace Sys2Proof

/-- The default OPCODE_MAP: 0 to 14 in table order (R72). Only NOP = 0 is the source's; the rest is the spec's own choice
D1 (log 15, unsafe for concrete encodings). -/
def OpcodeMap.default : OpcodeMap where
  nop := 0x00000000
  add := 0x00000001
  sub := 0x00000002
  and := 0x00000003
  or := 0x00000004
  xor := 0x00000005
  not := 0x00000006
  inp := 0x00000007
  out := 0x00000008
  load := 0x00000009
  stor := 0x0000000A
  jmp := 0x0000000B
  jz := 0x0000000C
  push := 0x0000000D
  dup := 0x0000000E

/-- The reference configuration: N = 1,024,000 (R5), STRIDE = 4 (R6), STRICT (R7), the default map (R8), an unbounded stack
(R9), no trace (R10) (log 15). -/
def Config.reference : Config where
  memSize := 1024000
  stride := 4
  boundsMode := .strict
  opcodeMap := OpcodeMap.default
  stackCapacity := none
  traceEnabled := false

end Sys2Proof
end

