-- ==== Sys2Proof/Syntax.lean ====
section
/-! DEFINITION. The instructions: one constructor for each row of the opcode table (R72). -/

namespace Sys2Proof

/-- The instruction set. All operands are on the stack but one: PUSH has the literal Word that stands in the slot after
its opcode, any Word, taken whole (R70, R75). `inp` is IN (`in` is a word of Lean's own). -/
inductive Instr where
  | nop
  | add
  | sub
  | and
  | or
  | xor
  | not
  | inp
  | out
  | load
  | stor
  | jmp
  | jz
  | push (literal : Word)
  | dup
deriving DecidableEq, Repr

end Sys2Proof
end

