-- ==== Sys2Proof/Decode.lean ====
section
/-! DEFINITION. Decoding and encoding (R70 to R78). Decoding an opcode Word is total: every Word is an instruction (R77).
Only a list of slots that is too short is rejected, by name. -/

namespace Sys2Proof

/-- R73, R74: the whole Word is compared with the values of the map; a Word that is none of them is NOP. -/
def decodeOpcode (m : OpcodeMap) (w : Word) : Opcode :=
  (Opcode.all.find? (fun o => m.value o == w)).getD .nop

/-- Whether a Word is one of the OPCODE_MAP values (R74). -/
def isOpcodeWord (m : OpcodeMap) (w : Word) : Bool :=
  Opcode.all.any (fun o => m.value o == w)

/-- R76: PUSH is two slots, every other opcode one. -/
def Opcode.slots : Opcode → Nat
  | .push => 2
  | .nop | .add | .sub | .and | .or | .xor | .not | .inp | .out | .load | .stor | .jmp | .jz | .dup => 1

/-- R78: the opcode's mnemonic, spelled as in the table. -/
def Opcode.name : Opcode → String
  | .nop => "NOP"
  | .add => "ADD"
  | .sub => "SUB"
  | .and => "AND"
  | .or => "OR"
  | .xor => "XOR"
  | .not => "NOT"
  | .inp => "IN"
  | .out => "OUT"
  | .load => "LOAD"
  | .stor => "STOR"
  | .jmp => "JMP"
  | .jz => "JZ"
  | .push => "PUSH"
  | .dup => "DUP"

/-- R78: the lookup used for diagnostics, from a Word to a name. An unrecognized Word is named NOP (D14). -/
def opcodeName (m : OpcodeMap) (w : Word) : String :=
  (decodeOpcode m w).name

/-- The instruction of an opcode whose following slot holds `literal`. Only PUSH takes the literal (R70, R75). -/
def Opcode.withLiteral (literal : Word) : Opcode → Instr
  | .nop => .nop
  | .add => .add
  | .sub => .sub
  | .and => .and
  | .or => .or
  | .xor => .xor
  | .not => .not
  | .inp => .inp
  | .out => .out
  | .load => .load
  | .stor => .stor
  | .jmp => .jmp
  | .jz => .jz
  | .push => .push literal
  | .dup => .dup

/-- The opcode of an instruction. -/
def Instr.opcode : Instr → Opcode
  | .nop => .nop
  | .add => .add
  | .sub => .sub
  | .and => .and
  | .or => .or
  | .xor => .xor
  | .not => .not
  | .inp => .inp
  | .out => .out
  | .load => .load
  | .stor => .stor
  | .jmp => .jmp
  | .jz => .jz
  | .push _ => .push
  | .dup => .dup

/-- The instruction that an opcode Word and the Word of the slot after it stand for (R73, R75). -/
def decodeSlots (m : OpcodeMap) (opcodeWord literalWord : Word) : Instr :=
  (decodeOpcode m opcodeWord).withLiteral literalWord

/-- Why a list of slots holds no instruction. No Word is a reason: no encoding is reserved or illegal (R77). -/
inductive DecodeError where
  | noOpcodeSlot    -- the list is empty
  | noLiteralSlot   -- the first slot holds PUSH and there is no slot after it
deriving DecidableEq, Repr

/-- Decode the first instruction of a list of slot Words, answering the slots after it (R70, R73 to R76). -/
def decode (m : OpcodeMap) : List Word → Except DecodeError (Instr × List Word)
  | [] => .error .noOpcodeSlot
  | w :: rest =>
    if decodeOpcode m w = .push then
      match rest with
      | [] => .error .noLiteralSlot
      | v :: rest' => .ok (decodeSlots m w v, rest')
    else .ok (decodeSlots m w 0, rest)

/-- The slot Words of an instruction (R70, R72, R80): its opcode Word, and for PUSH the literal after it. -/
def encode (m : OpcodeMap) : Instr → List Word
  | .push literal => [m.push, literal]
  | .nop => [m.nop]
  | .add => [m.add]
  | .sub => [m.sub]
  | .and => [m.and]
  | .or => [m.or]
  | .xor => [m.xor]
  | .not => [m.not]
  | .inp => [m.inp]
  | .out => [m.out]
  | .load => [m.load]
  | .stor => [m.stor]
  | .jmp => [m.jmp]
  | .jz => [m.jz]
  | .dup => [m.dup]

/-- The program image of a list of instructions (R80): their slot Words in order. -/
def encodeProgram (m : OpcodeMap) (program : List Instr) : List Word :=
  program.flatMap (encode m)

/-- R81: the halt idiom at address `a`, PUSH (a + 2*STRIDE) and then JMP. -/
def haltIdiom (stride : Nat) (a : Word) : List Instr :=
  [.push (a + BitVec.ofNat 32 (2 * stride)), .jmp]

/-- The two slot Words of an instruction numbered as the opcode table numbers bits: bit 0 is the least significant bit of
the first Word, and the second Word's bits count on from it. Bits from `nbits` up are 0. -/
def tableWords (nbits w : Nat) : Word × Word :=
  let bits := w % 2 ^ nbits
  (BitVec.ofNat 32 bits, BitVec.ofNat 32 (bits / 2 ^ 32))

/-- The instruction that the decoder reads, under the default OPCODE_MAP, from an instruction of the opcode table. -/
def decodeTableWord (nbits w : Nat) : Option Instr :=
  match decode OpcodeMap.default [(tableWords nbits w).1, (tableWords nbits w).2] with
  | .ok (i, _) => some i
  | .error _ => none

end Sys2Proof
end

