-- ==== Sys2Proof/Machine/State.lean ====
section
/-! DEFINITION. The state of the machine as plain data (R20, R184), what stops a model run (R43), and the state right after
reset (R180, R184). -/

namespace Sys2Proof.Machine

/-- Memory `M` (R50) as the list of its cells that are not 0, in one canonical form: addresses strictly rising, no entry
equal to 0. A cell that is not listed holds 0, the value reset gives every cell (R180). A cell is a whole Word: Memory
holds Words, not bytes, and no byte order exists (R58; DEDUCED, safe, log 2). -/
abbrev Memory := List (Nat × Word)

/-- The run state `rs` (R40). -/
inductive RunState where
  | loading | running | halted | fatal
deriving DecidableEq, Repr

/-- The kinds of fatal error (R151). -/
inductive FatalKind where
  | boundsViolation | stackUnderflow | fetchOutOfBounds
deriving DecidableEq, Repr

/-- What a fatal record names as its opcode: the mnemonic, or FETCH for a failed opcode fetch (R151, R154). -/
inductive FatalOp where
  | fetch
  | op (o : Opcode)
deriving DecidableEq, Repr

/-- The fatal record (R20, R42), also the report on the `diag` port (R154). -/
structure FatalRecord where
  kind : FatalKind
  opcode : FatalOp
  ip : Word
deriving DecidableEq, Repr

/-- One record of the `trace` port (R170). `raw` is the Word itself when it is no opcode value (D14). -/
structure TraceRecord where
  ip : Word
  opcode : Opcode
  depth : Nat
  top : Option Word
  second : Option Word
  raw : Option Word
deriving DecidableEq, Repr

/-- How the host goes on at the input port for ever (log 5). `none` is a poll at which it does not answer. -/
inductive InRest where
  /-- the same block over and over: `first`, then `more`, then `first` again -/
  | loop (first : Option InAnswer) (more : List (Option InAnswer))
  /-- an infinite sequence of bytes (R115): the free values `Config.freeByte n`, `Config.freeByte (n + 1)`, … -/
  | bytes (n : Nat)
  /-- anything (R110): the free values `Config.freeAnswer n`, `Config.freeAnswer (n + 1)`, … -/
  | free (n : Nat)
deriving DecidableEq, Repr

/-- What the host does at the coming polls of the input port: the queue in order, then `rest` (log 5). -/
structure InFeed where
  queue : List (Option InAnswer)
  rest : InRest
deriving DecidableEq, Repr

/-- How the host goes on at the output port for ever (log 5). `false` is a poll at which it does not accept. -/
inductive OutRest where
  /-- the same block over and over: `first`, then `more`, then `first` again -/
  | loop (first : Bool) (more : List Bool)
  /-- anything (R111): the free values `Config.freeAccept n`, `Config.freeAccept (n + 1)`, … -/
  | free (n : Nat)
deriving DecidableEq, Repr

/-- What the host does at the coming polls of the output port: the queue in order, then `rest` (log 5). -/
structure OutFeed where
  queue : List Bool
  rest : OutRest
deriving DecidableEq, Repr

/-- A transaction of the host to come (R46), or `idle`: the host leaves one step to the core (log 6). -/
inductive HostMove where
  | idle
  | reset
  | loadWord (w : Word)
  | start
  | inResp (a : InAnswer)
  | outAck
deriving DecidableEq, Repr

/-- The machine. The first five fields are the architectural state of R20; `inReq` and `outReq` are the port handshakes of
R184; the rest is the model's own: the parameters (log 1), the host's side of the ports (log 5, log 6), what the ports
have sent (log 8), and the counter of free values (log 4). -/
structure State where
  /-- `M` (R50) -/
  mem : Memory
  /-- `S` (R30), listed from the top down: the head is the top (log 3) -/
  stack : List Word
  /-- `ip` (R22), also the loader's cursor -/
  ip : Word
  /-- `rs` (R40) -/
  rs : RunState
  /-- the fatal record (R42) -/
  fatal : Option FatalRecord
  /-- `in_req` is raised and not yet answered: an IN is held (R110, R112) -/
  inReq : Bool
  /-- the byte presented on `out_byte` and not yet accepted: an OUT is held (R111, R112) -/
  outReq : Option Byte
  /-- the parameters (R5 to R10) -/
  cfg : Config
  /-- the host's answers to `in_req` to come; `none` leaves the IN held for one step -/
  input : InFeed
  /-- the host's acceptances of `out_byte` to come; `false` leaves the OUT held for one step -/
  sink : OutFeed
  /-- the host's other transactions to come -/
  cmds : List HostMove
  /-- the bytes delivered on `out_byte`, oldest first -/
  out : List Byte
  /-- the records emitted on `trace`, oldest first -/
  trace : List TraceRecord
  /-- the reports made on `diag`, oldest first -/
  diag : List FatalRecord
  /-- how many free values have been used -/
  freeCount : Nat
deriving DecidableEq, Repr

/-- What makes a step end in `Host.Outcome.fault`: nothing. Every exception of this hardware has an entry the spec
describes (R42, R152), and the model takes it: a next state whose `rs` is Fatal. So the type is empty (safe). -/
inductive Fault : Type
deriving DecidableEq, Repr

/-- Where the spec gives a run no meaning (R43). Each is safe: the model stops. -/
inductive Refusal where
  /-- an arm of exec whose instruction has no meaning yet (no arm is left) -/
  | notModelled (mnemonic : String)
  /-- LOAD or STOR at an address that the bounds check admits and that has no cell, N under REFERENCE_LE (R55). Raised by
  `memRead` and `memWrite`. Safe. -/
  | undefinedAccessAtN
  /-- a push beyond a finite STACK_CAPACITY (R33). Raised by `push`. Safe. -/
  | resourceExhausted
  /-- `load_word` with the cursor outside Memory (R187). Raised by `loadWord`. Safe. -/
  | loadOverflow
  /-- parameters outside their constraints (U6). Raised by `step` before anything else. Safe (log 11). -/
  | configOutOfRange
deriving DecidableEq, Repr

/-- The machine right after `reset` (R180, R184), with the reference configuration (log 15), a host that has no input, so
that every IN answers EOS, and accepts every byte (R115; DESIGN CHOICE, unsafe, log 5), and no host transaction to come
(DESIGN CHOICE, log 6). -/
def State.reset : State where
  mem := []
  stack := []
  ip := 0
  rs := .loading
  fatal := none
  inReq := false
  outReq := none
  cfg := Config.reference
  input := { queue := [], rest := .loop (some .eos) [] }
  sink := { queue := [], rest := .loop true [] }
  cmds := []
  out := []
  trace := []
  diag := []
  freeCount := 0

end Sys2Proof.Machine
end

