-- ==== Sys2Proof/Machine/Ops.lean ====
section
/-! DEFINITION. The pseudocode primitives of R12 over memory, stack, ip and ports, and the entry into the fatal state (R42).
A primitive that can end the instruction takes the rest of the instruction as its last argument, so that an instruction's
meaning reads as its pseudocode does. -/

namespace Sys2Proof.Machine

/-- What a cycle or an instruction answers. -/
abbrev Result := Host.Outcome State Fault Refusal

/-! ## Words (R11) -/

/-- `wrap32(i)`: the Word congruent to `i` modulo 2^32. -/
def wrap32 (i : Int) : Word := BitVec.ofInt 32 i

/-- `zext_32(b)`: the byte as a Word 0..255. -/
def zext32 (b : Byte) : Word := b.setWidth 32

/-- `a[7:0]`. -/
def lowByte (a : Word) : Byte := a.setWidth 8

/-! ## Memory (R50 to R54) -/

/-- The cell at an address; a cell that is not listed holds 0. -/
def Memory.read : Memory → Nat → Word
  | [], _ => 0#32
  | (b, w) :: m, a => if b = a then w else Memory.read m a

/-- Set one cell, keeping the canonical form: 0 is written by taking the cell off the list. -/
def Memory.write : Memory → Nat → Word → Memory
  | [], a, v => if v = 0#32 then [] else [(a, v)]
  | (b, w) :: m, a, v =>
    if a < b then
      if v = 0#32 then (b, w) :: m else (a, v) :: (b, w) :: m
    else if a = b then
      if v = 0#32 then m else (a, v) :: m
    else (b, w) :: Memory.write m a v

/-- Every address of the list is at least `lo`, addresses rise strictly, and no entry is 0. -/
def Memory.wfFrom : Nat → Memory → Bool
  | _, [] => true
  | lo, (a, w) :: m => decide (lo ≤ a) && w != 0#32 && Memory.wfFrom (a + 1) m

/-- The canonical form: addresses strictly rising, no entry equal to what an unlisted address reads as. -/
def Memory.wf (m : Memory) : Bool := Memory.wfFrom 0 m

/-- Every listed cell lies in [0, n). -/
def Memory.within (n : Nat) (m : Memory) : Bool := m.all (fun c => decide (c.1 < n))

/-- `0 <= a < N`: a cell exists at `a` (R50). -/
def State.inMemory (s : State) (a : Word) : Bool :=
  decide (0 ≤ a.toInt) && decide (a.toInt < s.cfg.memSize)

/-- The test of `BoundsCheck` (R52). -/
def State.admits (s : State) (a : Word) : Bool :=
  decide (0 ≤ a.toInt) &&
    match s.cfg.boundsMode with
    | .strict => decide (a.toInt < s.cfg.memSize)
    | .referenceLe => decide (a.toInt ≤ s.cfg.memSize)

/-- `M[a]`. -/
def State.cell (s : State) (a : Word) : Word := s.mem.read a.toNat

/-- The state after `M[a] <- v`. -/
def State.setCell (s : State) (a v : Word) : State := { s with mem := s.mem.write a.toNat v }

/-! ## The instruction pointer -/

/-- STRIDE as a Word. -/
def State.strideWord (s : State) : Word := BitVec.ofNat 32 s.cfg.stride

/-- `Advance()`: ip <- ip + STRIDE (R25). -/
def State.advance (s : State) : State := { s with ip := s.ip + s.strideWord }

/-! ## The terminal states -/

/-- The state a fatal error enters (R42, R152 to R154): rs is Fatal, the record holds the kind, the opcode and the
instruction's address, and the report goes out on `diag`. `ip` still holds that address, since an instruction that raises
has not advanced it. M is as it is; S is not specified and is a free value (R153, log 4). -/
def State.raised (k : FatalKind) (op : FatalOp) (s : State) : State :=
  { s with
    rs := .fatal
    fatal := some { kind := k, opcode := op, ip := s.ip }
    diag := s.diag ++ [{ kind := k, opcode := op, ip := s.ip }]
    stack := Config.freeStack s.freeCount
    freeCount := s.freeCount + 1 }

/-- `raise K(op)`: take the exception (R152). There is no return from one (R157). -/
def raise (k : FatalKind) (op : FatalOp) (s : State) : Result := .next (s.raised k op)

/-- `halt(0)` (R41): M, S and ip keep their values. -/
def halt (s : State) : Result := .next { s with rs := .halted }

/-! ## The operand stack (R30 to R33) -/

/-- Whether one more entry fits the capacity (R33). -/
def State.hasRoom (s : State) : Bool :=
  match s.cfg.stackCapacity with
  | none => true
  | some c => decide (s.stack.length < c)

/-- `Pop()` (R31). -/
def pop (o : Opcode) (s : State) (k : Word → State → Result) : Result :=
  match s.stack with
  | [] => raise .stackUnderflow (.op o) s
  | a :: rest => k a { s with stack := rest }

/-- `Push(v)` (R32, R33). -/
def push (v : Word) (s : State) (k : State → Result) : Result :=
  if s.hasRoom then k { s with stack := v :: s.stack } else .refused .resourceExhausted

/-! ## Checked accesses -/

/-- `BoundsCheck(a, op)` (R52). -/
def boundsCheck (a : Word) (o : Opcode) (s : State) (k : State → Result) : Result :=
  if s.admits a then k s else raise .boundsViolation (.op o) s

/-- `MemRead(a, 1)` (R53), after the bounds check; at an admitted address that has no cell the run is refused (R55). -/
def memRead (a : Word) (s : State) (k : Word → Result) : Result :=
  if s.inMemory a then k (s.cell a) else .refused .undefinedAccessAtN

/-- `MemWrite(a, 1, v)` (R54), likewise (R55). -/
def memWrite (a v : Word) (s : State) (k : State → Result) : Result :=
  if s.inMemory a then k (s.setCell a v) else .refused .undefinedAccessAtN

/-- `Fetch(a, op)` (R71): the check is strict under both bounds modes. -/
def fetch (a : Word) (op : FatalOp) (s : State) (k : Word → Result) : Result :=
  if s.inMemory a then k (s.cell a) else raise .fetchOutOfBounds op s

/-! ## The ports -/

/-- What the host does at this poll of the input port, and what is left of the feed. -/
def InFeed.take (f : InFeed) : Option InAnswer × InFeed :=
  match f.queue with
  | x :: q => (x, { f with queue := q })
  | [] =>
    match f.rest with
    | .loop first more => (first, { f with queue := more })
    | .bytes n => (some (.byte (Config.freeByte n)), { f with rest := .bytes (n + 1) })
    | .free n => (Config.freeAnswer n, { f with rest := .free (n + 1) })

/-- What the host does at this poll of the output port, and what is left of the feed. -/
def OutFeed.take (f : OutFeed) : Bool × OutFeed :=
  match f.queue with
  | x :: q => (x, { f with queue := q })
  | [] =>
    match f.rest with
    | .loop first more => (first, { f with queue := more })
    | .free n => (Config.freeAccept n, { f with rest := .free (n + 1) })

/-- The state after a poll of the input port: the host's answer is off its feed. -/
def State.inputPolled (s : State) : State := { s with input := s.input.take.2 }

/-- The state after a poll of the output port. -/
def State.sinkPolled (s : State) : State := { s with sink := s.sink.take.2 }

/-- The state of a core held at IN: `in_req` is raised, and nothing else of the core has changed (R112, log 7). -/
def State.heldAtIn (s : State) : State := { s with inReq := true }

/-- The state once the host has answered: the request is taken back. -/
def State.answered (s : State) : State := { s with inReq := false }

/-- `InByte()` (R110, R112). -/
def inByte (s : State) (k : InAnswer → State → Result) : Result :=
  match s.input.take.1 with
  | none => .next s.inputPolled.heldAtIn
  | some a => k a s.inputPolled.answered

/-- The state of a core held at OUT: the byte is presented, and nothing else of the core has changed (R112, log 7). -/
def State.heldAtOut (b : Byte) (s : State) : State := { s with outReq := some b }

/-- The state once the host has accepted the byte: it is delivered (R111, R116). -/
def State.delivered (b : Byte) (s : State) : State := { s with outReq := none, out := s.out ++ [b] }

/-- `OutByte(b)` (R111, R112). `start` is the state at the start of the cycle: a held cycle has not yet changed it, so the
operand is still on its stack. -/
def outByte (b : Byte) (start s : State) (k : State → Result) : Result :=
  match s.sink.take.1 with
  | false => .next (start.sinkPolled.heldAtOut b)
  | true => k (s.sinkPolled.delivered b)

/-! ## Status (R45, R47) -/

/-- The exit status: 0 in Halted, 1 in Fatal, none before (R45). -/
def State.exitStatus (s : State) : Option Nat :=
  match s.rs with
  | .loading => none
  | .running => none
  | .halted => some 0
  | .fatal => some 1

/-- The numeric code of a kind (R151). -/
def FatalKind.code : FatalKind → Nat
  | .boundsViolation => 1
  | .stackUnderflow => 2
  | .fetchOutOfBounds => 3

/-- The name of a fatal record's opcode: a mnemonic or FETCH (R47). -/
def FatalOp.name : FatalOp → String
  | .fetch => "FETCH"
  | .op o => o.name

/-- `fatal_kind`, as its code (R47). -/
def State.fatalKind (s : State) : Option Nat := s.fatal.map (fun r => r.kind.code)

/-- `fatal_opcode` (R47). -/
def State.fatalOpcode (s : State) : Option FatalOp := s.fatal.map (fun r => r.opcode)

/-- `fatal_ip` (R47). -/
def State.fatalIp (s : State) : Option Word := s.fatal.map (fun r => r.ip)

end Sys2Proof.Machine
end

