-- ==== Sys2Proof/Machine/Flags.lean ====
section
/-! DEFINITION. The core has no flags and no condition codes (R21): NOT and JZ test a popped Word directly. This is that test.
-/

namespace Sys2Proof.Machine

/-- The condition of NOT and JZ (R106, R131): the Word is 0. -/
def isZero (a : Word) : Bool := a == 0

/-- The result of NOT (R106): logical, 1 for 0 and 0 for every other Word. -/
def logicalNot (a : Word) : Word := if isZero a then 1 else 0

end Sys2Proof.Machine
end

