-- ==== Sys2Proof/Machine/Operands.lean ====
section
/-! DEFINITION. The operand forms: the shapes in which instructions take their operands from the stack (R21, R72). The one
operand of the instruction stream, the PUSH literal, is a field of the instruction (R75). -/

namespace Sys2Proof.Machine

/-- "pop a, pop b, push f a b", then advance: ADD, SUB, AND, OR, XOR. `a` is the top, popped first. -/
def binary (o : Opcode) (f : Word → Word → Word) (s : State) : Result :=
  pop o s fun a s =>
  pop o s fun b s =>
  push (f a b) s fun s =>
  .next s.advance

/-- "pop a, push f a", then advance: NOT. -/
def unary (o : Opcode) (f : Word → Word) (s : State) : Result :=
  pop o s fun a s =>
  push (f a) s fun s =>
  .next s.advance

/-- The Word that IN pushes for an answer: the byte zero-extended, or -1 at the end of the stream (R113, D9). -/
def InAnswer.word : InAnswer → Word
  | .byte b => zext32 b
  | .eos => wrap32 (-1)

end Sys2Proof.Machine
end

