-- ==== Sys2Proof/Machine/Alu.lean ====
section
/-! DEFINITION. NOP, arithmetic and logic (40_alu.md). -/

namespace Sys2Proof.Machine

/-- R100. -/
def execNop (s : State) : Result := .next s.advance

/-- R101, R99: the sum modulo 2^32 (D5, log 16). -/
def execAdd (s : State) : Result := binary .add (fun a b => wrap32 (a.toInt + b.toInt)) s

/-- R102, R99: top minus second, modulo 2^32 (D5, log 16). -/
def execSub (s : State) : Result := binary .sub (fun a b => wrap32 (a.toInt - b.toInt)) s

/-- R103. -/
def execAnd (s : State) : Result := binary .and (fun a b => a &&& b) s

/-- R104. -/
def execOr (s : State) : Result := binary .or (fun a b => a ||| b) s

/-- R105. -/
def execXor (s : State) : Result := binary .xor (fun a b => a ^^^ b) s

/-- R106. -/
def execNot (s : State) : Result := unary .not logicalNot s

end Sys2Proof.Machine
end

