-- ==== Sys2Proof/Machine/ByteIo.lean ====
section
/-! DEFINITION. Byte input and output (41_io.md). -/

namespace Sys2Proof.Machine

/-- The rest of IN once `InByte()` has its answer (R113), at the poll that finds it or at the host's `in_resp` (R112). -/
def finishIn (r : InAnswer) (s : State) : Result :=
  push r.word s fun s =>
  .next s.advance

/-- R113: "push next input byte, or -1 at end-of-stream". -/
def execIn (s : State) : Result :=
  inByte s finishIn

/-- R114: "pop a, write low 8 bits of a to output". The underflow comes before the output transaction. -/
def execOut (s : State) : Result :=
  pop .out s fun a popped =>
  outByte (lowByte a) s popped fun s =>
  .next s.advance

/-- A held OUT completes when the host accepts the byte it presents (R111, R112): the pop, the delivery and the advance that the
hold had put off. -/
def finishOut (b : Byte) (s : State) : Result :=
  pop .out s fun _ popped =>
  .next (popped.delivered b).advance

end Sys2Proof.Machine
end

