-- ==== Sys2Proof/Machine/Control.lean ====
section
/-! DEFINITION. Control transfer and the halt protocol (43_control.md). -/

namespace Sys2Proof.Machine

/-- R130: "pop addr, bounds-check, if addr == ip-of-this-instruction then Halt(0), else ip := addr". -/
def execJmp (s : State) : Result :=
  pop .jmp s fun addr s =>
  boundsCheck addr .jmp s fun s =>
  if addr = s.ip then halt s else .next { s with ip := addr }

/-- R131: "pop a; if a ≠ 0 then advance (discard a); else bounds-check(a) and ip := a". -/
def execJz (s : State) : Result :=
  pop .jz s fun a s =>
  if isZero a then
    boundsCheck a .jz s fun s => .next { s with ip := a }
  else .next s.advance

end Sys2Proof.Machine
end

