-- ==== Sys2Proof/Machine/MemoryAccess.lean ====
section
/-! DEFINITION. Memory access (42_memory_access.md). The effective address is the popped Word itself, unscaled. -/

namespace Sys2Proof.Machine

/-- R120: "pop addr, bounds-check, push Memory.read(addr)". -/
def execLoad (s : State) : Result :=
  pop .load s fun addr s =>
  boundsCheck addr .load s fun s =>
  memRead addr s fun v =>
  push v s fun s =>
  .next s.advance

/-- R121: address first, value second, and only then the bounds check. -/
def execStor (s : State) : Result :=
  pop .stor s fun addr s =>
  pop .stor s fun value s =>
  boundsCheck addr .stor s fun s =>
  memWrite addr value s fun s =>
  .next s.advance

end Sys2Proof.Machine
end

