-- ==== Sys2Proof/Machine/StackOps.lean ====
section
/-! DEFINITION. Stack instructions (44_stack.md). -/

namespace Sys2Proof.Machine

/-- R140: "advance ip, read literal Word at new ip, push it, advance ip again". `literal` is the Word that the cycle read
in the slot after the opcode, from the same memory (log 12); the check of that read is made here, before `ip` has moved,
since a failing PUSH leaves its own address in `ip` (R42). -/
def execPush (literal : Word) (s : State) : Result :=
  fetch (s.ip + s.strideWord) (.op .push) s fun _ =>
  push literal s fun s =>
  .next s.advance.advance

/-- R141: "pop a, push a, push a". -/
def execDup (s : State) : Result :=
  pop .dup s fun a s =>
  push a s fun s =>
  push a s fun s =>
  .next s.advance

end Sys2Proof.Machine
end

