-- ==== Sys2Proof/Machine/Fetch.lean ====
section
/-! DEFINITION. What a cycle reads from the instruction stream, and the trace record it emits (R26, R71, R170). -/

namespace Sys2Proof.Machine

/-- The Word at `ip`. -/
def State.opcodeWord (s : State) : Word := s.cell s.ip

/-- The Word of the slot after `ip`: the literal, if the opcode is PUSH (R75). -/
def State.literalWord (s : State) : Word := s.cell (s.ip + s.strideWord)

/-- The opcode of the instruction at `ip` (R73, R74). -/
def State.opcodeAtIp (s : State) : Opcode := decodeOpcode s.cfg.opcodeMap s.opcodeWord

/-- The instruction at `ip`. -/
def State.instrAtIp (s : State) : Instr := decodeSlots s.cfg.opcodeMap s.opcodeWord s.literalWord

/-- This step polls again for an IN or OUT that is already held: its cycle has begun, and its trace record has gone out
(R112, log 9). -/
def State.resuming (s : State) : Bool :=
  (s.opcodeAtIp == .inp && s.inReq) || (s.opcodeAtIp == .out && s.outReq.isSome)

/-- The record of this cycle (R170): emitted after decoding and before executing. -/
def State.traceRecord (s : State) : TraceRecord where
  ip := s.ip
  opcode := s.opcodeAtIp
  depth := s.stack.length
  top := s.stack.head?
  second := s.stack.tail.head?
  raw := if isOpcodeWord s.cfg.opcodeMap s.opcodeWord then none else some s.opcodeWord

/-- `EmitTrace` when TRACE_ENABLED (R26, R170). It changes no other state (R171). -/
def State.traced (s : State) : State :=
  if s.cfg.traceEnabled && !s.resuming then { s with trace := s.trace ++ [s.traceRecord] } else s

end Sys2Proof.Machine
end

