-- ==== Sys2Proof/Machine/HostPort.lean ====
section
/-! DEFINITION. The host's transactions (R46): `reset`, `load_word`, `start`, and an `in_resp` or `out_ack` for a core that is
held. One that is not accepted in the run state changes no state. -/

namespace Sys2Proof.Machine

/-- R180, R184: every piece of the core's state takes its reset value. The parameters, the host's side of the ports and
what the ports have sent are not the core's state and stay (log 8). -/
def State.afterReset (s : State) : State :=
  { s with mem := [], stack := [], ip := 0, rs := .loading, fatal := none, inReq := false, outReq := none }

/-- R181, R187. The cursor is `ip`. -/
def loadWord (v : Word) (s : State) : Result :=
  if s.inMemory s.ip then .next (s.setCell s.ip v).advance else .refused .loadOverflow

/-- R182: `ip <- 0`, `rs <- Running`. -/
def State.started (s : State) : State := { s with ip := 0, rs := .running }

/-- One transaction of the host, accepted in the run states of R46 and ignored in the others. An accepted `in_resp` or
`out_ack` completes the held cycle at once and ends the request (R112), so a second one meets no request and is ignored
(R46, D24; DEDUCED, safe, log 6). The feeds of log 5 are neither read nor changed (DESIGN CHOICE, safe, log 6). -/
def hostMove (m : HostMove) (s : State) : Result :=
  match m with
  | .idle => .next s
  | .reset => .next s.afterReset
  | .loadWord v => if s.rs = .loading then loadWord v s else .next s
  | .start => if s.rs = .loading then .next s.started else .next s
  | .inResp a => if s.rs = .running ∧ s.inReq = true then finishIn a s.answered else .next s
  | .outAck =>
    match s.outReq with
    | none => .next s
    | some b => if s.rs = .running then finishOut b s else .next s

end Sys2Proof.Machine
end

