-- ==== Sys2Proof/Machine/Cycle.lean ====
section
/-! DEFINITION. The execution cycle (R26) and the core's turn in each run state (R40, R44). -/

namespace Sys2Proof.Machine

/-- R26: fetch, decode, trace, execute. A fetch that fails raises before the trace (R155, R170). -/
def cycle (s : State) : Result :=
  fetch s.ip .fetch s fun _ => exec s.instrAtIp s.traced

/-- What the core does when the host leaves it the step: a cycle while Running. In Loading no cycle runs; Halted and Fatal
are absorbing (R40, R44), so the state stays (log 10). -/
def coreTurn (s : State) : Result :=
  match s.rs with
  | .running => cycle s
  | .loading => .next s
  | .halted => .next s
  | .fatal => .next s

/-- One step of the block: the host's next transaction if it has one, else the core's turn (log 6). A transaction lands
between two cycles or while a cycle is held, never inside one (R28, R48). -/
def turn (s : State) : Result :=
  match s.cmds with
  | [] => coreTurn s
  | .idle :: rest => coreTurn { s with cmds := rest }
  | m :: rest => hostMove m { s with cmds := rest }

/-- Put the slot Words of one instruction at `ip`, the second one only where Memory has its slot. -/
def State.placeAtIp (w : Word × Word) (s : State) : State :=
  let s1 := s.setCell s.ip w.1
  if s.inMemory (s.ip + s.strideWord) then s1.setCell (s.ip + s.strideWord) w.2 else s1

/-- `ip` itself if a cell is there, else 0, the entry point (R182). -/
def State.fetchAddress (s : State) : Word := if s.inMemory s.ip then s.ip else 0

end Sys2Proof.Machine
end

