-- ==== Sys2Proof/WellFormed.lean ====
section
/-! DEFINITION. What a machine's parameters must satisfy. There is no check on an instruction: the only operand field of
the encoding is the PUSH literal, and it "may hold any Word" (R75). -/

namespace Sys2Proof

/-- R8: an injective map from the 15 mnemonics to Words, with NOP mapped to 0. -/
def OpcodeMap.wf (m : OpcodeMap) : Bool :=
  m.nop == 0 && decide (Opcode.all.map m.value).Nodup

/-- R9: UNBOUNDED or a positive integer. -/
def Config.capacityOk (c : Config) : Bool :=
  match c.stackCapacity with
  | none => true
  | some n => decide (0 < n)

/-- The constraints of R5 (1 <= N and N + 2*STRIDE <= 2^31 - 1), R6 (STRIDE >= 1), R8 and R9. A machine outside them is
refused (U6, log 11). -/
def Config.wf (c : Config) : Bool :=
  decide (1 ≤ c.memSize) && decide (1 ≤ c.stride) && decide (c.memSize + 2 * c.stride ≤ 2147483647)
    && c.opcodeMap.wf && c.capacityOk

/-- R187: a program image fits when it has at most ceil(N / STRIDE) words. -/
def Config.imageFits (c : Config) (image : List Word) : Bool :=
  decide (image.length ≤ (c.memSize + c.stride - 1) / c.stride)

end Sys2Proof
end

