-- ==== Sys2Proof/Machine/Step.lean ====
section
/-! DEFINITION. One step of the machine, and how an instruction is placed where the next step fetches it. -/

namespace Sys2Proof.Machine

/-- One step: one cycle of the core, one poll of a held port, or one transaction of the host. Parameters outside their
constraints make no machine (U6, log 11). -/
def step (s : State) : Host.Outcome State Fault Refusal :=
  if s.cfg.wf then turn s else .refused .configOutOfRange

/-- `s` with one instruction of the opcode table stored where the next step fetches, and ready to run it: Running, as
after `load_word` and `start`, and with no host transaction before it (log 13). -/
def State.withFetchWord (s : State) (nbits w : Nat) : State :=
  ({ s with rs := .running, ip := s.fetchAddress, cmds := [] } : State).placeAtIp (tableWords nbits w)

end Sys2Proof.Machine
end

