-- ==== Sys2Proof/Safety.lean ====
section
/-! DEFINITION. The terms claims use: what it means that a step raises, what the core's own state is, the invariant of the
machine, and a list of instructions run one after another. -/

namespace Sys2Proof

/-- How many entries an instruction takes off the stack and how many it puts on (R72). -/
def Instr.pops : Instr → Nat
  | .nop | .inp | .push _ => 0
  | .not | .out | .load | .jmp | .jz | .dup => 1
  | .add | .sub | .and | .or | .xor | .stor => 2

/-- See `Instr.pops`. -/
def Instr.pushes : Instr → Nat
  | .nop | .out | .stor | .jmp | .jz => 0
  | .add | .sub | .and | .or | .xor | .not | .inp | .load | .push _ => 1
  | .dup => 2

end Sys2Proof

namespace Sys2Proof.Machine

/-- The next state, if there is one. -/
def nextOf : Result → Option State
  | .next s => some s
  | .fault _ => none
  | .refused _ => none

/-- Apply a function to the next state, if there is one. -/
def mapNext (f : State → State) : Result → Result
  | .next s => .next (f s)
  | .fault r => .fault r
  | .refused r => .refused r

/-- The instruction ends in the terminal state Fatal with kind `k`, reporting `op` (R12, R151). It says nothing of S (R153).
-/
def Raises (k : FatalKind) (op : FatalOp) (o : Result) : Prop :=
  ∃ t r, o = .next t ∧ t.rs = .fatal ∧ t.exitStatus = some 1 ∧ t.fatal = some r ∧ r.kind = k ∧ r.opcode = op

/-- The architectural state of R20 is the same in two states. -/
def SameCore (s t : State) : Prop :=
  t.mem = s.mem ∧ t.stack = s.stack ∧ t.ip = s.ip ∧ t.rs = s.rs ∧ t.fatal = s.fatal

/-- A safe step: it answers a next state that is not Fatal. -/
def SafeStep (s : State) : Prop := ∃ t, step s = .next t ∧ t.rs ≠ .fatal

/-- The stack is not deeper than a finite capacity (R33). -/
def State.depthOk (s : State) : Bool :=
  match s.cfg.stackCapacity with
  | none => true
  | some c => decide (s.stack.length ≤ c)

/-- The kind and the opcode of a record are a pair of the table of R151 (JZ raises no BoundsViolation: C3). -/
def FatalRecord.listed (r : FatalRecord) : Bool :=
  match r.kind with
  | .boundsViolation => r.opcode ∈ [FatalOp.op .load, .op .stor, .op .jmp]
  | .stackUnderflow =>
    r.opcode ∈ [FatalOp.op .add, .op .sub, .op .and, .op .or, .op .xor, .op .not, .op .out, .op .load, .op .stor,
      .op .jmp, .op .jz, .op .dup]
  | .fetchOutOfBounds => r.opcode ∈ [FatalOp.fetch, .op .push]

/-- The invariant of the machine: what every step keeps. -/
structure State.Inv (s : State) : Prop where
  /-- the parameters meet their constraints (R5 to R9) -/
  cfgWf : s.cfg.wf = true
  /-- memory is in its canonical form -/
  memWf : s.mem.wf = true
  /-- every listed cell exists (R50) -/
  memWithin : s.mem.within s.cfg.memSize = true
  /-- `ip` is no negative Word -/
  ipLow : 0 ≤ s.ip.toInt
  /-- `ip` is at most one slot past the last cell (R24, R25) -/
  ipHigh : s.ip.toInt < s.cfg.memSize + s.cfg.stride
  /-- the stack keeps to a finite capacity, except after a fatal error, when its content is not specified (R33, R153) -/
  depth : s.rs ≠ .fatal → s.depthOk = true
  /-- loading does not touch the stack, which reset cleared (R182) -/
  loadingStack : s.rs = .loading → s.stack = []
  /-- there is a fatal record exactly in Fatal (R47) -/
  fatalIff : s.fatal.isSome = true ↔ s.rs = .fatal
  /-- the record holds the instruction's address, and a kind and opcode of R151 (R42) -/
  fatalRecord : ∀ r, s.fatal = some r → r.ip = s.ip ∧ r.listed = true
  /-- a halted machine stands at a JMP (R41) -/
  haltedAtJmp : s.rs = .halted → s.inMemory s.ip = true ∧ s.opcodeAtIp = .jmp
  /-- `in_req` is raised only by an IN that is held (R112) -/
  heldIn : s.inReq = true → s.rs = .running ∧ s.inMemory s.ip = true ∧ s.opcodeAtIp = .inp
  /-- a byte is presented only by an OUT that is held, and it is the low byte of the top (R112, R114) -/
  heldOut : ∀ b, s.outReq = some b → s.rs = .running ∧ s.inMemory s.ip = true ∧ s.opcodeAtIp = .out ∧
    ∃ a rest, s.stack = a :: rest ∧ b = lowByte a

/-- Run instructions one after another, each from the state the one before it left. It fetches nothing. -/
def execAll : List Instr → State → Result
  | [], s => .next s
  | i :: is, s =>
    match exec i s with
    | .next t => execAll is t
    | .fault r => .fault r
    | .refused r => .refused r

/-- `n` steps of the machine, stopping at the first that answers no next state (the host's `Core.run`). -/
def runSteps (n : Nat) (s : State) : Result := Host.Core.run Sys2Proof.core n s

/-- The state of a machine that has never traced and does not trace. -/
def State.untraced (s : State) : State :=
  { s with trace := [], cfg := { s.cfg with traceEnabled := false } }

/-- The host's transactions that load an image and start it (R183). -/
def bootMoves (image : List Word) : List HostMove :=
  .reset :: image.map .loadWord ++ [.start]

end Sys2Proof.Machine
end

