-- ==== Sys2Proof/Certificates/Slice0/Obligations.lean ====
section
/-! DEFINITION. The statements for the provers. Each docstring names what of spec/ it formalises; where a clause rests on a
decision that the spec marks as its own, or on one of the model's, it says so. -/

open Sys2Proof Sys2Proof.Machine

/-! ## Reset, load and start -/

/-- R184, R20, and the parameter summary of 00_scope.md. The values of `rs`, the fatal record and the handshakes are the
spec's decisions D23 and D24; the parameter values are its defaults (log 15). -/
def Obligations.ResetStateHoldsTheResetValues : Prop :=
  (∀ a : Nat, State.reset.mem.read a = 0) ∧ State.reset.stack = [] ∧ State.reset.ip = 0 ∧
  State.reset.rs = .loading ∧ State.reset.fatal = none ∧ State.reset.exitStatus = none ∧
  State.reset.inReq = false ∧ State.reset.outReq = none ∧
  State.reset.cfg.memSize = 1024000 ∧ State.reset.cfg.stride = 4 ∧ State.reset.cfg.boundsMode = .strict ∧
  Opcode.all.map State.reset.cfg.opcodeMap.value = (List.range 15).map (BitVec.ofNat 32) ∧
  State.reset.cfg.stackCapacity = none ∧ State.reset.cfg.traceEnabled = false

/-- R180, with D23 (accepted in every run state; `rs` and the record are reset too). That the ports' logs and the host's
feeds stay is the model's choice (log 8). -/
def Obligations.ResetIsAcceptedInEveryRunState : Prop :=
  ∀ (s : State) (rest : List HostMove), s.cfg.wf = true → s.cmds = .reset :: rest →
    step s = .next { s with
      mem := [], stack := [], ip := 0, rs := .loading, fatal := none, inReq := false, outReq := none, cmds := rest }

/-- R181 and R187 (D19): `load_word` in Loading writes the cell at the cursor and nothing else, and advances the cursor; with
the cursor at or past N the load is refused. -/
def Obligations.LoadWordWritesTheCursorCell : Prop :=
  ∀ (s : State) (v : Word) (rest : List HostMove),
    s.cfg.wf = true → s.rs = .loading → s.cmds = .loadWord v :: rest →
    (0 ≤ s.ip.toInt → s.ip.toInt < s.cfg.memSize → s.mem.wf = true →
      ∃ m : Memory,
        step s = .next { s with mem := m, ip := s.ip + BitVec.ofNat 32 s.cfg.stride, cmds := rest } ∧
        m.read s.ip.toNat = v ∧ (∀ a, a ≠ s.ip.toNat → m.read a = s.mem.read a) ∧ m.wf = true) ∧
    (s.cfg.memSize ≤ s.ip.toInt → step s = .refused .loadOverflow)

/-- R182: `start` in Loading sets `ip` to 0 and `rs` to Running and changes neither M nor S (that it is accepted only in
Loading is the spec's decision D24). -/
def Obligations.StartSetsIpToZeroAndRuns : Prop :=
  ∀ (s : State) (rest : List HostMove), s.cfg.wf = true → s.rs = .loading → s.cmds = .start :: rest →
    step s = .next { s with ip := 0, rs := .running, cmds := rest }

/-- R46 (D24): a transaction not accepted in the current run state is ignored and changes no state. An `in_resp` or `out_ack`
is accepted only while Running with the port's request standing. -/
def Obligations.MisplacedTransactionsAreIgnored : Prop :=
  ∀ (s : State) (m : HostMove) (rest : List HostMove), s.cfg.wf = true → s.cmds = m :: rest →
    ((s.rs ≠ .loading ∧ (m = .start ∨ ∃ w, m = .loadWord w)) ∨
     (¬ (s.rs = .running ∧ s.inReq = true) ∧ ∃ a, m = .inResp a) ∨
     (¬ (s.rs = .running ∧ s.outReq ≠ none) ∧ m = .outAck)) →
    step s = .next { s with cmds := rest }

/-- R48 (D20): while Running, no transaction of the host but `reset` and the answer to a standing request changes M, S, ip,
the run state, the record, the handshakes or the bytes sent; what an answer does is `AcceptedAnswersCompleteTheHeldCycle`.
The host's `idle` is the model's (log 6). -/
def Obligations.HostCannotTouchARunningCore : Prop :=
  ∀ (s : State) (m : HostMove) (rest : List HostMove),
    s.cfg.wf = true → s.rs = .running → s.cmds = m :: rest → m ≠ .idle → m ≠ .reset →
    ¬ (s.inReq = true ∧ ∃ a, m = .inResp a) → ¬ (s.outReq ≠ none ∧ m = .outAck) →
    ∃ t, step s = .next t ∧ SameCore s t ∧ t.out = s.out ∧ t.inReq = s.inReq ∧ t.outReq = s.outReq ∧ t.cfg = s.cfg ∧
      t.input = s.input ∧ t.sink = s.sink ∧ t.cmds = rest

/-- R46, R110 to R112: while Running with `in_req` standing, `in_resp` completes the held IN at once with the host's answer,
and with a byte presented, `out_ack` completes the held OUT and delivers that byte; either ends the request, so that a
second answer to it is ignored (D24). The byte is pushed zero-extended by the spec's decision D9; a push beyond a finite
capacity is refused (D11). That the step that takes the answer is the step that completes the cycle, with the feeds as they
were, is the model's form (log 6). -/
def Obligations.AcceptedAnswersCompleteTheHeldCycle : Prop :=
  ∀ (s : State) (rest : List HostMove), s.cfg.wf = true → s.rs = .running →
    (∀ a, s.inReq = true → s.cmds = .inResp a :: rest → s.hasRoom = true →
      ∃ v : Word, (∀ b, a = .byte b → v.toInt = b.toNat) ∧ (a = .eos → v.toInt = -1) ∧
        step s = .next { s with
          stack := v :: s.stack, ip := s.ip + BitVec.ofNat 32 s.cfg.stride, inReq := false, cmds := rest }) ∧
    (∀ a, s.inReq = true → s.cmds = .inResp a :: rest → s.hasRoom = false → step s = .refused .resourceExhausted) ∧
    (∀ b x st, s.outReq = some b → s.cmds = .outAck :: rest → s.stack = x :: st →
      step s = .next { s with
        stack := st, ip := s.ip + BitVec.ofNat 32 s.cfg.stride, out := s.out ++ [b], outReq := none, cmds := rest }) ∧
    (∀ a a', s.inReq = true → s.cmds = .inResp a :: .inResp a' :: rest → s.hasRoom = true →
      ∃ t, step s = .next t ∧ runSteps 2 s = .next { t with cmds := rest }) ∧
    (s.outReq ≠ none → s.cmds = .outAck :: .outAck :: rest → s.stack ≠ [] →
      ∃ t, step s = .next t ∧ runSteps 2 s = .next { t with cmds := rest })

/-- R112: an answer by the host's `in_resp` or `out_ack` and an answer that the core finds at its poll complete a held cycle
alike: the next states differ in the feed that the poll has read (the two ways are the model's form, log 5 and log 6). -/
def Obligations.AnswersByPortAndByPollAgree : Prop :=
  ∀ (s : State) (rest : List HostMove), s.Inv → s.rs = .running →
    (∀ a q, s.inReq = true → s.input.queue = some a :: q → s.cmds = [] →
      mapNext (fun t => { t with input := s.input }) (step s) =
        mapNext (fun t => { t with cmds := [] }) (step { s with cmds := .inResp a :: rest })) ∧
    (∀ q, s.outReq ≠ none → s.sink.queue = true :: q → s.cmds = [] →
      mapNext (fun t => { t with sink := s.sink }) (step s) =
        mapNext (fun t => { t with cmds := [] }) (step { s with cmds := .outAck :: rest }))

/-- R183, with R180, R181, R182 and R184: from any state of any machine, `reset`, one `load_word` for each word of an image
that fits, and `start` leave the machine Running at 0 with an empty stack, no record and idle ports, program word k at
address k*STRIDE, and 0 in every other cell. That `reset` and `start` are accepted as they are is the spec's decisions D23 and
D24; that everything else stays and that each transaction is one step is the model's choice (log 6, log 8, log 13). -/
def Obligations.BootPlacesTheImageAndStarts : Prop :=
  ∀ (s : State) (image : List Word) (rest : List HostMove),
    s.cfg.wf = true → s.cfg.imageFits image = true → s.cmds = bootMoves image ++ rest →
    ∃ m : Memory,
      runSteps (image.length + 2) s = .next { s with
        mem := m, stack := [], ip := 0, rs := .running, fatal := none, inReq := false, outReq := none, cmds := rest } ∧
      (∀ (k : Nat) (w : Word), image[k]? = some w → m.read (k * s.cfg.stride) = w) ∧
      (∀ a : Nat, (∀ k, k < image.length → a ≠ k * s.cfg.stride) → m.read a = 0)

/-- R187 (D19): an image of more than ceil(N / STRIDE) words is refused while it is loaded, and the machine never starts.
-/
def Obligations.OverlongImageIsRefused : Prop :=
  ∀ (s : State) (image : List Word) (rest : List HostMove),
    s.cfg.wf = true → s.cfg.imageFits image = false → s.cmds = bootMoves image ++ rest →
    runSteps (image.length + 1) s = .refused .loadOverflow

/-! ## Encoding -/

/-- R70, R72, R73, R75: under every map, decoding the slots of an instruction gives that instruction, with its whole literal,
and leaves the slots after it. -/
def Obligations.DecodeOfEncodeIsTheInstruction : Prop :=
  ∀ (m : OpcodeMap) (i : Instr) (rest : List Word), m.wf = true → decode m (encode m i ++ rest) = .ok (i, rest)

/-- The other direction, for opcode Words: encoding what was decoded gives the slots back. -/
def Obligations.EncodeOfDecodeIsTheSlots : Prop :=
  ∀ (m : OpcodeMap) (w : Word) (slots rest : List Word) (i : Instr),
    m.wf = true → isOpcodeWord m w = true → decode m (w :: slots) = .ok (i, rest) → encode m i ++ rest = w :: slots

/-- R73: the whole Word is compared; it selects the mnemonic whose value equals it. `Decode` has no argument but the map and
the Word. -/
def Obligations.OpcodeWordsAreComparedWhole : Prop :=
  ∀ (m : OpcodeMap), m.wf = true →
    (∀ o : Opcode, decodeOpcode m (m.value o) = o) ∧
    (∀ (w : Word) (o : Opcode), o ≠ .nop → decodeOpcode m w = o → w = m.value o)

/-- R74: every Word that is not an OPCODE_MAP value decodes to NOP; under the default map these are the Words below 0 and above
14; and the cycle that fetches one raises nothing and changes no state but `ip` (`traced` emits the record of R170 and nothing
else). -/
def Obligations.UnrecognizedWordsBehaveAsNop : Prop :=
  (∀ (m : OpcodeMap) (w : Word), (∀ o, m.value o ≠ w) → decodeOpcode m w = .nop) ∧
  (∀ w : Word, (∀ o, OpcodeMap.default.value o ≠ w) ↔ (w.toInt < 0 ∨ 14 < w.toInt)) ∧
  (∀ s : State, s.cfg.wf = true → s.rs = .running → s.cmds = [] →
    0 ≤ s.ip.toInt → s.ip.toInt < s.cfg.memSize → (∀ o, s.cfg.opcodeMap.value o ≠ s.mem.read s.ip.toNat) →
    step s = .next { s.traced with ip := s.ip + BitVec.ofNat 32 s.cfg.stride })

/-- Words written out from the table of R72 decode to their instructions (a sanity statement). -/
def Obligations.TableWordsDecode : Prop :=
  decodeTableWord 32 0x00000000 = some .nop ∧ decodeTableWord 32 0x00000002 = some .sub ∧
  decodeTableWord 32 0x00000007 = some .inp ∧ decodeTableWord 32 0x0000000A = some .stor ∧
  decodeTableWord 32 0x0000000B = some .jmp ∧ decodeTableWord 64 0xFFFFFFFE0000000D = some (.push (-2)) ∧
  decodeTableWord 32 0x0000000F = some .nop

/-! ## The cycle -/

/-- R26: while Running, with no host transaction before it, a step is the execution of the instruction that the slots at `ip`
decode to, on the state whose trace record has gone out. The host's `idle` is the model's (log 6). -/
def Obligations.StepRunsTheDecodedInstruction : Prop :=
  ∀ (s : State) (i : Instr) (left : List Word),
    s.cfg.wf = true → s.rs = .running → 0 ≤ s.ip.toInt → s.ip.toInt < s.cfg.memSize →
    decode s.cfg.opcodeMap [s.mem.read s.ip.toNat, s.mem.read (s.ip + BitVec.ofNat 32 s.cfg.stride).toNat] = .ok (i, left) →
    (s.cmds = [] → step s = exec i s.traced) ∧
    (∀ rest, s.cmds = .idle :: rest → step s = exec i ({ s with cmds := rest } : State).traced)

/-- R170, R78 (D14 for the raw Word and the strings of the names): when tracing, a cycle that begins emits one record; a
held cycle that goes on emits none (the model's reading, log 9); with the trace off nothing is emitted. -/
def Obligations.TraceRecordHasTheFieldsOfTheCycle : Prop :=
  ∀ s : State,
    (s.cfg.traceEnabled = false → s.traced = s) ∧
    ((s.opcodeAtIp = .inp ∧ s.inReq = true ∨ s.opcodeAtIp = .out ∧ s.outReq ≠ none) → s.traced = s) ∧
    (s.cfg.traceEnabled = true → s.inReq = false → s.outReq = none →
      ∃ r : TraceRecord, s.traced = { s with trace := s.trace ++ [r] } ∧
        r.ip = s.ip ∧ r.opcode = decodeOpcode s.cfg.opcodeMap (s.mem.read s.ip.toNat) ∧
        r.opcode.name = opcodeName s.cfg.opcodeMap (s.mem.read s.ip.toNat) ∧ r.depth = s.stack.length ∧
        r.top = s.stack[0]? ∧ r.second = s.stack[1]? ∧
        ((∃ o, s.cfg.opcodeMap.value o = s.mem.read s.ip.toNat) → r.raw = none) ∧
        ((∀ o, s.cfg.opcodeMap.value o ≠ s.mem.read s.ip.toNat) → r.raw = some (s.mem.read s.ip.toNat)))

/-- R78 (that the names are the mnemonics, and that an unrecognized Word is named NOP, is the spec's decision D14), with R47
for `fatal_opcode`: under every map the lookup gives each opcode value its mnemonic, spelled as in the table of R72, every
other Word NOP, and a fatal record's opcode that mnemonic or FETCH. -/
def Obligations.OpcodeNamesAreTheMnemonics : Prop :=
  (∀ m : OpcodeMap, m.wf = true →
    Opcode.all.map (fun o => opcodeName m (m.value o)) =
      ["NOP", "ADD", "SUB", "AND", "OR", "XOR", "NOT", "IN", "OUT", "LOAD", "STOR", "JMP", "JZ", "PUSH", "DUP"] ∧
    ∀ o, (FatalOp.op o).name = opcodeName m (m.value o)) ∧
  (∀ (m : OpcodeMap) (w : Word), (∀ o, m.value o ≠ w) → opcodeName m w = "NOP") ∧
  FatalOp.fetch.name = "FETCH"

/-- R171, R10: tracing or not changes no state but the trace itself, on any step of any state. -/
def Obligations.TracingChangesNothingElse : Prop :=
  ∀ s : State, mapNext State.untraced (step s) = step s.untraced

/-- R71, R42, R154, R155, R170 (the check and the fault are the spec's decision D6, the record's address and the report's
D13): a fetch outside [0, N) ends the run with FetchOutOfBounds(FETCH) at that address, reported on `diag`, and changes
nothing else but S, of which nothing is said (R153, log 4); no trace record goes out. -/
def Obligations.FetchOutsideMemoryIsFatal : Prop :=
  ∀ s : State, s.cfg.wf = true → s.rs = .running →
    (s.ip.toInt < 0 ∨ (s.cfg.memSize : Int) ≤ s.ip.toInt) →
    ∀ rest, (s.cmds = [] ∧ rest = [] ∨ s.cmds = .idle :: rest) →
    ∃ t r, step s = .next t ∧ r.kind = .fetchOutOfBounds ∧ r.opcode = .fetch ∧ r.ip = s.ip ∧
      t = { s with
        rs := .fatal, fatal := some r, diag := s.diag ++ [r], stack := t.stack, freeCount := t.freeCount, cmds := rest }

/-- R75: the PUSH literal is the whole Word of the slot after the opcode, whatever it is, read from Memory when the PUSH
executes, and not decoded. -/
def Obligations.PushTakesTheWholeNextSlot : Prop :=
  ∀ s : State, s.cfg.wf = true → s.rs = .running → s.cmds = [] →
    0 ≤ s.ip.toInt → s.ip.toInt + s.cfg.stride < s.cfg.memSize → s.hasRoom = true →
    s.mem.read s.ip.toNat = s.cfg.opcodeMap.push →
    step s = .next { s.traced with
      stack := s.mem.read (s.ip.toNat + s.cfg.stride) :: s.stack,
      ip := s.ip + BitVec.ofNat 32 (2 * s.cfg.stride) }

/-! ## The instructions: where each completes, with its whole next state, and where it raises -/

/-- R100: NOP only advances; every Word that is not an opcode value is a NOP, whatever follows it. -/
def Obligations.NopOnlyAdvances : Prop :=
  (∀ s : State, exec .nop s = .next { s with ip := s.ip + BitVec.ofNat 32 s.cfg.stride }) ∧
  (∀ (m : OpcodeMap) (v : Word), m.wf = true → decodeSlots m 0 v = .nop) ∧
  (∀ (m : OpcodeMap) (w v : Word), (∀ o, m.value o ≠ w) → decodeSlots m w v = .nop)

/-- R101, R102, R99. That the result wraps modulo 2^32 is the spec's decision D5 (log 16). SUB is top minus second. -/
def Obligations.AddAndSubWrapModuloTwoToThe32 : Prop :=
  ∀ s : State,
    (∀ a b rest, s.stack = a :: b :: rest → s.depthOk = true →
      exec .add s = .next { s with stack := (a + b) :: rest, ip := s.ip + BitVec.ofNat 32 s.cfg.stride } ∧
      exec .sub s = .next { s with stack := (a - b) :: rest, ip := s.ip + BitVec.ofNat 32 s.cfg.stride }) ∧
    (s.stack.length < 2 →
      Raises .stackUnderflow (.op .add) (exec .add s) ∧ Raises .stackUnderflow (.op .sub) (exec .sub s))

/-- R103, R104, R105. -/
def Obligations.AndOrXorAreBitwise : Prop :=
  ∀ s : State,
    (∀ a b rest, s.stack = a :: b :: rest → s.depthOk = true →
      exec .and s = .next { s with stack := (a &&& b) :: rest, ip := s.ip + BitVec.ofNat 32 s.cfg.stride } ∧
      exec .or s = .next { s with stack := (a ||| b) :: rest, ip := s.ip + BitVec.ofNat 32 s.cfg.stride } ∧
      exec .xor s = .next { s with stack := (a ^^^ b) :: rest, ip := s.ip + BitVec.ofNat 32 s.cfg.stride }) ∧
    (s.stack.length < 2 →
      Raises .stackUnderflow (.op .and) (exec .and s) ∧ Raises .stackUnderflow (.op .or) (exec .or s) ∧
      Raises .stackUnderflow (.op .xor) (exec .xor s))

/-- R106: NOT is logical: 0 gives 1, every other Word gives 0. -/
def Obligations.NotIsLogical : Prop :=
  ∀ s : State,
    (∀ rest, s.stack = 0 :: rest → s.depthOk = true →
      exec .not s = .next { s with stack := 1 :: rest, ip := s.ip + BitVec.ofNat 32 s.cfg.stride }) ∧
    (∀ a rest, s.stack = a :: rest → a ≠ 0 → s.depthOk = true →
      exec .not s = .next { s with stack := 0 :: rest, ip := s.ip + BitVec.ofNat 32 s.cfg.stride }) ∧
    (s.stack = [] → Raises .stackUnderflow (.op .not) (exec .not s))

/-- R113, R112: IN pushes the byte the host answers as 0..255 (zero-extended by the spec's decision D9), or -1 for EOS. The
answer is the host's (D10); a push beyond a finite capacity is refused (D11). Until the host answers, IN is held: the
request is raised and nothing else of the machine changes (that the poll is a step and reads the host's feed is the model's
form, log 5 and log 7). -/
def Obligations.InPushesTheByteOrMinusOne : Prop :=
  ∀ s : State,
    (∀ b, s.input.take.1 = some (.byte b) → s.hasRoom = true →
      ∃ v : Word, v.toInt = b.toNat ∧
        exec .inp s = .next { s with
          stack := v :: s.stack, ip := s.ip + BitVec.ofNat 32 s.cfg.stride, input := s.input.take.2, inReq := false }) ∧
    (s.input.take.1 = some .eos → s.hasRoom = true →
      ∃ v : Word, v.toInt = -1 ∧
        exec .inp s = .next { s with
          stack := v :: s.stack, ip := s.ip + BitVec.ofNat 32 s.cfg.stride, input := s.input.take.2, inReq := false }) ∧
    (s.input.take.1 ≠ none → s.hasRoom = false → exec .inp s = .refused .resourceExhausted) ∧
    (s.input.take.1 = none → exec .inp s = .next { s with input := s.input.take.2, inReq := true })

/-- R115, R110, R111 (the choice of hosts is the model's, log 5): what the `n`-th poll of a port finds. A finite input
answers its bytes in order and then EOS for ever; an infinite one its bytes in order; a host may go through one block of
answers and holds over and over, or do anything. -/
def Obligations.FeedsAnswerInOrder : Prop :=
  (∀ (bytes : List Byte) (n : Nat),
    ((fun f : InFeed => f.take.2)^[n]
      { queue := bytes.map fun b => some (.byte b), rest := .loop (some .eos) [] }).take.1 =
        some (match bytes[n]? with | some b => .byte b | none => .eos)) ∧
  (∀ k n : Nat, ((fun f : InFeed => f.take.2)^[n] { queue := [], rest := .bytes k }).take.1 =
    some (.byte (Config.freeByte (k + n)))) ∧
  (∀ (x : Option InAnswer) (xs : List (Option InAnswer)) (n : Nat),
    some ((fun f : InFeed => f.take.2)^[n] { queue := [], rest := .loop x xs }).take.1 =
      (x :: xs)[n % (xs.length + 1)]?) ∧
  (∀ k n : Nat, ((fun f : InFeed => f.take.2)^[n] { queue := [], rest := .free k }).take.1 = Config.freeAnswer (k + n)) ∧
  (∀ (q : List Bool) (x : Bool) (n : Nat), n < q.length →
    some ((fun f : OutFeed => f.take.2)^[n] { queue := q, rest := .loop x [] }).take.1 = q[n]?) ∧
  (∀ (x : Bool) (xs : List Bool) (n : Nat),
    some ((fun f : OutFeed => f.take.2)^[n] { queue := [], rest := .loop x xs }).take.1 = (x :: xs)[n % (xs.length + 1)]?) ∧
  (∀ k n : Nat, ((fun f : OutFeed => f.take.2)^[n] { queue := [], rest := .free k }).take.1 = Config.freeAccept (k + n))

/-- R114: OUT pops a Word and sends bits 7..0 of it; it may hold until the host accepts; on an empty stack it raises before any
output transaction, so no byte is sent. -/
def Obligations.OutSendsTheLowByte : Prop :=
  ∀ s : State,
    (∀ a rest, s.stack = a :: rest → s.sink.take.1 = true →
      ∃ b : Byte, b.toNat = a.toNat % 256 ∧
        exec .out s = .next { s with
          stack := rest, ip := s.ip + BitVec.ofNat 32 s.cfg.stride, out := s.out ++ [b], sink := s.sink.take.2,
          outReq := none }) ∧
    (∀ a rest, s.stack = a :: rest → s.sink.take.1 = false →
      ∃ b : Byte, b.toNat = a.toNat % 256 ∧ exec .out s = .next { s with sink := s.sink.take.2, outReq := some b }) ∧
    (s.stack = [] → Raises .stackUnderflow (.op .out) (exec .out s) ∧
      ∃ t, exec .out s = .next t ∧ t.out = s.out ∧ t.sink = s.sink ∧ t.outReq = s.outReq)

/-- R112: an IN or OUT that waits for the host has not yet taken effect: no state of R20 changes. A hold has no time limit: if
the host never answers, the run is a hang, at the same instruction after any number of steps, with no exit status. -/
def Obligations.HeldPortsChangeNoStateForEver : Prop :=
  (∀ s : State, s.input.take.1 = none →
    ∃ t, exec .inp s = .next t ∧ SameCore s t ∧ t.out = s.out ∧ t.inReq = true) ∧
  (∀ (s : State) (a : Word) (rest : List Word), s.stack = a :: rest → s.sink.take.1 = false →
    ∃ t, exec .out s = .next t ∧ SameCore s t ∧ t.out = s.out ∧ t.outReq ≠ none) ∧
  (∀ (s : State) (n : Nat), s.cfg.wf = true → s.rs = .running → s.cmds = [] →
    0 ≤ s.ip.toInt → s.ip.toInt < s.cfg.memSize →
    ((s.mem.read s.ip.toNat = s.cfg.opcodeMap.inp ∧ s.input = { queue := [], rest := .loop none [] }) ∨
     (s.mem.read s.ip.toNat = s.cfg.opcodeMap.out ∧ s.stack ≠ [] ∧ s.sink = { queue := [], rest := .loop false [] })) →
    ∃ t, runSteps n s = .next t ∧ SameCore s t ∧ t.out = s.out ∧ t.exitStatus = none)

/-- R52 (the default bound is the spec's decision D2): what the bounds check admits, and what a cell exists at. -/
def Obligations.BoundsCheckAdmitsTheRange : Prop :=
  ∀ (s : State) (a : Word),
    (s.cfg.boundsMode = .strict → (s.admits a = true ↔ 0 ≤ a.toInt ∧ a.toInt < s.cfg.memSize)) ∧
    (s.cfg.boundsMode = .referenceLe → (s.admits a = true ↔ 0 ≤ a.toInt ∧ a.toInt ≤ s.cfg.memSize)) ∧
    (s.inMemory a = true ↔ 0 ≤ a.toInt ∧ a.toInt < s.cfg.memSize)

/-- R120, R55: LOAD replaces the popped address by the Word of its cell. The refusal at N under REFERENCE_LE is the spec's
decision D2. -/
def Obligations.LoadReadsOneCell : Prop :=
  ∀ s : State,
    (∀ addr rest, s.stack = addr :: rest → s.inMemory addr = true → s.depthOk = true →
      exec .load s = .next { s with
        stack := s.mem.read addr.toNat :: rest, ip := s.ip + BitVec.ofNat 32 s.cfg.stride }) ∧
    (∀ addr rest, s.stack = addr :: rest → s.admits addr = false →
      Raises .boundsViolation (.op .load) (exec .load s)) ∧
    (∀ addr rest, s.stack = addr :: rest → s.admits addr = true → s.inMemory addr = false →
      exec .load s = .refused .undefinedAccessAtN) ∧
    (s.stack = [] → Raises .stackUnderflow (.op .load) (exec .load s))

/-- R121, R54, R55: STOR pops the address, then the value, and only then checks the address; it sets one cell and no other. The
refusal at N under REFERENCE_LE is the spec's decision D2. -/
def Obligations.StorWritesOneCell : Prop :=
  ∀ s : State,
    (∀ addr value rest, s.stack = addr :: value :: rest → s.inMemory addr = true → s.mem.wf = true →
      ∃ m : Memory,
        exec .stor s = .next { s with mem := m, stack := rest, ip := s.ip + BitVec.ofNat 32 s.cfg.stride } ∧
        m.read addr.toNat = value ∧ (∀ a, a ≠ addr.toNat → m.read a = s.mem.read a) ∧ m.wf = true) ∧
    (∀ addr value rest, s.stack = addr :: value :: rest → s.admits addr = false →
      Raises .boundsViolation (.op .stor) (exec .stor s)) ∧
    (∀ addr value rest, s.stack = addr :: value :: rest → s.admits addr = true → s.inMemory addr = false →
      exec .stor s = .refused .undefinedAccessAtN) ∧
    (s.stack.length < 2 → Raises .stackUnderflow (.op .stor) (exec .stor s))

/-- R130: JMP takes the popped address as `ip` with no advance, or, when it is the JMP's own address, halts with status 0 and
leaves M, the rest of S and `ip` as they are. -/
def Obligations.JmpTransfersOrHalts : Prop :=
  ∀ s : State,
    (∀ addr rest, s.stack = addr :: rest → s.admits addr = true → addr ≠ s.ip →
      exec .jmp s = .next { s with stack := rest, ip := addr }) ∧
    (∀ rest, s.stack = s.ip :: rest → s.admits s.ip = true →
      ∃ t, exec .jmp s = .next t ∧ t = { s with stack := rest, rs := .halted } ∧ t.exitStatus = some 0) ∧
    (∀ addr rest, s.stack = addr :: rest → s.admits addr = false →
      Raises .boundsViolation (.op .jmp) (exec .jmp s)) ∧
    (s.stack = [] → Raises .stackUnderflow (.op .jmp) (exec .jmp s))

/-- R131: JZ discards a nonzero Word and advances, whatever address it would be; a zero Word makes `ip` 0. It never halts and
never raises BoundsViolation. -/
def Obligations.JzJumpsToZeroOnly : Prop :=
  ∀ s : State,
    (∀ a rest, s.stack = a :: rest → a ≠ 0 →
      exec .jz s = .next { s with stack := rest, ip := s.ip + BitVec.ofNat 32 s.cfg.stride }) ∧
    (∀ rest, s.stack = 0 :: rest → s.cfg.wf = true → exec .jz s = .next { s with stack := rest, ip := 0 }) ∧
    (s.stack = [] → Raises .stackUnderflow (.op .jz) (exec .jz s)) ∧
    (s.cfg.wf = true → s.rs = .running → ∀ o, ¬ Raises .boundsViolation o (exec .jz s)) ∧
    (∀ t, exec .jz s = .next t → t.rs = .halted → s.rs = .halted)

/-- R140: PUSH pushes its literal and advances twice. The fault of a literal slot outside Memory is the spec's decision D7, the
refusal beyond a finite capacity D11. -/
def Obligations.PushPushesTheLiteral : Prop :=
  ∀ (s : State) (v : Word),
    (s.inMemory (s.ip + BitVec.ofNat 32 s.cfg.stride) = true → s.hasRoom = true →
      exec (.push v) s = .next { s with
        stack := v :: s.stack, ip := s.ip + BitVec.ofNat 32 s.cfg.stride + BitVec.ofNat 32 s.cfg.stride }) ∧
    (s.inMemory (s.ip + BitVec.ofNat 32 s.cfg.stride) = true → s.hasRoom = false →
      exec (.push v) s = .refused .resourceExhausted) ∧
    (s.inMemory (s.ip + BitVec.ofNat 32 s.cfg.stride) = false →
      Raises .fetchOutOfBounds (.op .push) (exec (.push v) s))

/-- R141: DUP leaves the top twice; the entries below are untouched. The refusal beyond a finite capacity is the spec's decision
D11. -/
def Obligations.DupDoublesTheTop : Prop :=
  ∀ s : State,
    (∀ a rest, s.stack = a :: rest → s.hasRoom = true →
      exec .dup s = .next { s with stack := a :: a :: rest, ip := s.ip + BitVec.ofNat 32 s.cfg.stride }) ∧
    (∀ a rest, s.stack = a :: rest → s.hasRoom = false → exec .dup s = .refused .resourceExhausted) ∧
    (s.stack = [] → Raises .stackUnderflow (.op .dup) (exec .dup s))

/-! ## Frames: what an instruction leaves unchanged on every path that answers a next state, raising and holding included -/

/-- Every instruction but STOR leaves every cell (R53, R54, R60). -/
def Obligations.OnlyStorChangesMemory : Prop :=
  ∀ (i : Instr) (s t : State), i ≠ .stor → exec i s = .next t → ∀ a : Nat, t.mem.read a = s.mem.read a

/-- STOR leaves every cell but the one at the popped address, and where it raises it leaves that one too (R54, R56). -/
def Obligations.StorChangesOnlyTheAddressedCell : Prop :=
  ∀ s t : State, s.rs = .running → s.mem.wf = true → exec .stor s = .next t →
    (∀ addr value rest, s.stack = addr :: value :: rest → ∀ a, a ≠ addr.toNat → t.mem.read a = s.mem.read a) ∧
    (s.stack.length < 2 → ∀ a, t.mem.read a = s.mem.read a) ∧
    (t.rs = .fatal → t.mem = s.mem)

/-- No instruction changes the parameters, the host's transactions or the trace; only IN touches the input port, only OUT the
output port and the bytes sent; only an instruction that raises touches the record, `diag` and the free-value counter; and
only one that raises or halts touches the run state. -/
def Obligations.InstructionsTouchOnlyTheirOwnState : Prop :=
  ∀ (i : Instr) (s t : State), s.rs = .running → exec i s = .next t →
    t.cfg = s.cfg ∧ t.cmds = s.cmds ∧ t.trace = s.trace ∧
    (i ≠ .inp → t.input = s.input ∧ t.inReq = s.inReq) ∧
    (i ≠ .out → t.sink = s.sink ∧ t.outReq = s.outReq ∧ t.out = s.out) ∧
    (t.rs ≠ .fatal → t.fatal = s.fatal ∧ t.diag = s.diag ∧ t.freeCount = s.freeCount) ∧
    (i ≠ .jmp → t.rs ≠ .fatal → t.rs = .running)

/-- R72's stack effects: an instruction that does not raise either is held, with the stack as it was, or takes off and puts on
as many entries as its row says, and the entries below are untouched. -/
def Obligations.EntriesBelowTheOperandsStay : Prop :=
  ∀ (i : Instr) (s t : State), s.rs = .running → exec i s = .next t → t.rs ≠ .fatal →
    ((i = .inp ∧ t.inReq = true ∨ i = .out ∧ t.outReq ≠ none) ∧ t.stack = s.stack ∧ t.ip = s.ip) ∨
    (i.pops ≤ s.stack.length ∧ t.stack.drop i.pushes = s.stack.drop i.pops ∧
      t.stack.length + i.pops = s.stack.length + i.pushes)

/-- R27: every instruction advances `ip` by the stride after its effect, PUSH twice, and JMP and a taken JZ write it and do not
advance; one that raises or halts does not advance. (A held one has had no effect yet, R112.) -/
def Obligations.IpMovesAsEachInstructionSays : Prop :=
  ∀ (i : Instr) (s t : State), s.rs = .running → exec i s = .next t →
    (t.rs ≠ .running → t.ip = s.ip) ∧
    (t.rs = .running → ¬ (i = .inp ∧ t.inReq = true) → ¬ (i = .out ∧ t.outReq ≠ none) →
      match i with
      | .push _ => t.ip = s.ip + BitVec.ofNat 32 (2 * s.cfg.stride)
      | .jmp => s.stack.head? = some t.ip
      | .jz => t.ip = (if s.stack.head? = some 0 then 0 else s.ip + BitVec.ofNat 32 s.cfg.stride)
      | _ => t.ip = s.ip + BitVec.ofNat 32 s.cfg.stride)

/-- R25: the advance is an exact integer addition; it never wraps, since an executing instruction stands in [0, N). The two
transfers that write `ip` instead (R27), JMP and a taken JZ, are left out; a JZ not taken advances. -/
def Obligations.AdvanceNeverWraps : Prop :=
  ∀ (s t : State) (i : Instr), s.cfg.wf = true → s.rs = .running → s.inMemory s.ip = true →
    i ≠ .jmp → ¬ (i = .jz ∧ s.stack.head? = some 0) → exec i s = .next t → t.ip ≠ s.ip →
    t.ip.toInt = s.ip.toInt + i.opcode.slots * s.cfg.stride

/-! ## Fatal errors and the ends of a run -/

/-- R42, R152, R153, R154 (the record's address and that M and `ip` are kept are the spec's decisions D12 and D13): an
instruction that raises changes nothing but the run state, the record, the report on `diag`, and S, of which nothing is
said; the record names the instruction, its address, and a kind that R151 lists for it. -/
def Obligations.RaisingLeavesAPreciseState : Prop :=
  ∀ (i : Instr) (s t : State), s.cfg.wf = true → s.rs = .running → exec i s = .next t → t.rs = .fatal →
    ∃ r : FatalRecord, r.ip = s.ip ∧ r.opcode = .op i.opcode ∧ r.listed = true ∧
      t = { s with
        rs := .fatal, fatal := some r, diag := s.diag ++ [r], stack := t.stack, freeCount := t.freeCount }

/-- R134: a run ends normally only by a JMP whose popped address equals its own address; the status is then 0. The first clause
says it of a step of the machine, whatever the host does, the second of an instruction. -/
def Obligations.OnlyASelfJumpHalts : Prop :=
  (∀ s t : State, step s = .next t → s.rs = .running → t.rs = .halted →
    s.opcodeAtIp = .jmp ∧ s.stack = s.ip :: t.stack ∧ t.ip = s.ip ∧ t.mem = s.mem ∧ t.exitStatus = some 0) ∧
  (∀ (i : Instr) (s t : State), s.rs = .running → exec i s = .next t → t.rs = .halted →
    i = .jmp ∧ ∃ rest, s.stack = s.ip :: rest ∧ t.stack = rest ∧ t.ip = s.ip ∧ t.mem = s.mem ∧ t.exitStatus = some 0)

/-- R45. -/
def Obligations.ExitStatusFollowsTheRunState : Prop :=
  ∀ s : State,
    (s.rs = .halted → s.exitStatus = some 0) ∧ (s.rs = .fatal → s.exitStatus = some 1) ∧
    ((s.rs = .loading ∨ s.rs = .running) → s.exitStatus = none)

/-- R47, with the codes of R151 (the codes, the record's address and the port are the spec's decisions D13 and D15): the
`status` outputs of a state that meets the invariant: there is no fatal field outside Fatal, and in Fatal they show the kind's
code, the opcode and the address of the instruction that raised. -/
def Obligations.StatusShowsTheFatalRecord : Prop :=
  ∀ s : State, s.Inv →
    (s.rs ≠ .fatal → s.fatalKind = none ∧ s.fatalOpcode = none ∧ s.fatalIp = none) ∧
    (s.rs = .fatal → ∃ r, s.fatal = some r ∧ s.exitStatus = some 1 ∧ s.fatalOpcode = some r.opcode ∧
      s.fatalIp = some s.ip ∧
      ((r.kind = .boundsViolation ∧ s.fatalKind = some 1) ∨ (r.kind = .stackUnderflow ∧ s.fatalKind = some 2) ∨
       (r.kind = .fetchOutOfBounds ∧ s.fatalKind = some 3)))

/-- R44: Halted and Fatal are absorbing: whatever the host does, until a `reset` no state of R20 and no handshake of R184 has
changed, after any number of steps (that the host's other transactions are ignored is the spec's decision D24; that a step with
no transaction answers the same state is the model's reading, log 10). -/
def Obligations.HaltedAndFatalAreAbsorbing : Prop :=
  ∀ (s : State) (n : Nat), s.cfg.wf = true → (s.rs = .halted ∨ s.rs = .fatal) → .reset ∉ s.cmds.take n →
    ∃ t, runSteps n s = .next t ∧ SameCore s t ∧ t.inReq = s.inReq ∧ t.outReq = s.outReq ∧
      t.out = s.out ∧ t.trace = s.trace ∧ t.diag = s.diag

/-- R40 (D24): the only transitions of the run state. -/
def Obligations.RunStateTransitions : Prop :=
  ∀ s t : State, step s = .next t →
    t.rs = s.rs ∨
    (t.rs = .loading ∧ s.cmds.head? = some .reset) ∨
    (s.rs = .loading ∧ t.rs = .running ∧ s.cmds.head? = some .start) ∨
    (s.rs = .running ∧ (t.rs = .halted ∨ t.rs = .fatal))

/-- R43: an instruction is refused only at an address N that REFERENCE_LE admits, or by a push beyond a finite capacity. -/
def Obligations.InstructionsAreRefusedOnlyAsListed : Prop :=
  ∀ (i : Instr) (s : State) (r : Refusal), s.depthOk = true → exec i s = .refused r →
    (r = .undefinedAccessAtN ∧ (i = .load ∨ i = .stor) ∧ s.cfg.boundsMode = .referenceLe ∧
      ∃ addr rest, s.stack = addr :: rest ∧ addr.toInt = s.cfg.memSize) ∨
    (r = .resourceExhausted ∧ s.cfg.stackCapacity = some s.stack.length ∧
      (i = .inp ∨ i = .dup ∨ ∃ v, i = .push v))

/-- Under the default bounds mode and an unbounded stack every step of every machine answers a next state, but for a load past
the end of Memory (R43). -/
def Obligations.DefaultMachineNeverStops : Prop :=
  ∀ s : State, s.cfg.wf = true → s.cfg.boundsMode = .strict → s.cfg.stackCapacity = none →
    (s.rs = .loading → (∃ v rest, s.cmds = .loadWord v :: rest) → s.inMemory s.ip = true) →
    ∃ t, step s = .next t

/-! ## Invariants and rules of the whole machine -/

/-- The invariant holds right after reset. -/
def Obligations.InvariantHoldsAtReset : Prop := State.reset.Inv

/-- The invariant: parameters within their constraints, memory in canonical form and inside [0, N), `ip` at most one slot past
Memory, the stack within its capacity, the record present exactly in Fatal and of a kind R151 lists, a halted machine at a
JMP, a port's request standing only at its own instruction. Every step keeps it. -/
def Obligations.EveryStepKeepsTheInvariant : Prop :=
  ∀ s t : State, s.Inv → step s = .next t → t.Inv

/-- R20: the parameters are fixed for the lifetime of a machine (carrying them in State is the model's choice, log 1). -/
def Obligations.ParametersNeverChange : Prop :=
  ∀ s t : State, step s = .next t → t.cfg = s.cfg

/-- R54, R180, R181: what can change a cell in a step: `reset`; a `load_word` in Loading, at the cursor; and a STOR of a running
core, at the popped address. -/
def Obligations.MemoryChangesOnlyByStorLoadAndReset : Prop :=
  ∀ (s t : State) (a : Nat), s.mem.wf = true → step s = .next t → t.mem.read a ≠ s.mem.read a →
    s.cmds.head? = some .reset ∨
    (s.rs = .loading ∧ a = s.ip.toNat ∧ ∃ v, s.cmds.head? = some (.loadWord v)) ∨
    (s.rs = .running ∧ s.opcodeAtIp = .stor ∧ ∃ addr rest, s.stack = addr :: rest ∧ a = addr.toNat)

/-- R111, R116: bytes reach the sink in the order the OUT instructions execute, each once: a step sends at most one byte, after
all that were sent before, and only when an OUT pops it, at its poll or at the host's `out_ack`. -/
def Obligations.OutputGrowsByOneByteOfAnOut : Prop :=
  ∀ s t : State, s.Inv → step s = .next t →
    t.out = s.out ∨
    (s.rs = .running ∧ s.opcodeAtIp = .out ∧
      ∃ a rest, s.stack = a :: rest ∧ t.stack = rest ∧ t.out = s.out ++ [lowByte a])

/-- R63, R191: a STOR is seen by the very next fetch. -/
def Obligations.NextFetchSeesTheStore : Prop :=
  ∀ (s : State) (addr value : Word) (rest : List Word),
    s.cfg.wf = true → s.mem.wf = true → s.rs = .running → s.cmds = [] → s.inMemory s.ip = true →
    s.mem.read s.ip.toNat = s.cfg.opcodeMap.stor → s.stack = addr :: value :: rest → s.inMemory addr = true →
    ∃ t, step s = .next t ∧ t.rs = .running ∧ t.ip = s.ip + BitVec.ofNat 32 s.cfg.stride ∧
      t.opcodeAtIp = decodeOpcode s.cfg.opcodeMap (if addr = t.ip then value else s.mem.read t.ip.toNat) ∧
      t.literalWord =
        (if addr = t.ip + BitVec.ofNat 32 s.cfg.stride then value
         else s.mem.read (t.ip + BitVec.ofNat 32 s.cfg.stride).toNat)

/-- R122: `PUSH v; PUSH addr; STOR; PUSH addr; LOAD` leaves `v` on top of the stack and the stack otherwise as before. -/
def Obligations.StoreThenLoadGivesTheValueBack : Prop :=
  ∀ (s : State) (v addr : Word),
    s.cfg.wf = true → s.mem.wf = true → s.inMemory addr = true → 0 ≤ s.ip.toInt →
    s.ip.toInt + 6 * s.cfg.stride < s.cfg.memSize →
    (∀ c, s.cfg.stackCapacity = some c → s.stack.length + 2 ≤ c) →
    ∃ t, execAll [.push v, .push addr, .stor, .push addr, .load] s = .next t ∧
      t.stack = v :: s.stack ∧ t.rs = s.rs ∧ t.out = s.out ∧
      t.ip = s.ip + BitVec.ofNat 32 (8 * s.cfg.stride) ∧
      t.mem.read addr.toNat = v ∧ ∀ a, a ≠ addr.toNat → t.mem.read a = s.mem.read a

/-- R81, R130, R41: the halt idiom at any address halts the machine in two steps, with status 0, at its JMP, with M, S and the
output as they were. -/
def Obligations.HaltIdiomHaltsInTwoSteps : Prop :=
  ∀ s : State, s.cfg.wf = true → s.rs = .running → s.cmds = [] → s.hasRoom = true →
    0 ≤ s.ip.toInt → s.ip.toInt + 2 * s.cfg.stride < s.cfg.memSize →
    (∀ (k : Nat) (w : Word), (encodeProgram s.cfg.opcodeMap (haltIdiom s.cfg.stride s.ip))[k]? = some w →
      s.mem.read (s.ip.toNat + k * s.cfg.stride) = w) →
    ∃ t, runSteps 2 s = .next t ∧ t.rs = .halted ∧ t.exitStatus = some 0 ∧
      t.ip = s.ip + BitVec.ofNat 32 (2 * s.cfg.stride) ∧ t.mem = s.mem ∧ t.stack = s.stack ∧ t.out = s.out

/-- R186 (an inference the spec marks as its own): memory of all NOPs, run from 0, executes NOPs up to the first slot at or
past N, whatever N and STRIDE are, and then ends with FetchOutOfBounds(FETCH) there and exit status 1 (the fault is the
spec's decision D6). -/
def Obligations.EmptyProgramRunsOffTheEnd : Prop :=
  ∀ s : State, s.cfg.wf = true → s.rs = .running → s.cmds = [] → s.mem = [] → s.ip = 0 →
    ∃ t, runSteps ((s.cfg.memSize + s.cfg.stride - 1) / s.cfg.stride + 1) s = .next t ∧
      t.rs = .fatal ∧ t.exitStatus = some 1 ∧ t.mem = [] ∧ t.out = s.out ∧
      t.fatal = some {
        kind := .fetchOutOfBounds, opcode := .fetch,
        ip := BitVec.ofNat 32 ((s.cfg.memSize + s.cfg.stride - 1) / s.cfg.stride * s.cfg.stride) }
end

