-- ==== Sys2Proof/Laws/Config.lean ====
section
/-! SUPPORT. What well-formed parameters give: the address checks as facts about natural numbers, and advances that never wrap
(R5, R25). -/

namespace Sys2Proof.Machine

theorem memSize_pos {c : Config} (h : c.wf = true) : 1 ≤ c.memSize := by
  simp only [Config.wf, Bool.and_eq_true, decide_eq_true_eq] at h; exact h.1.1.1.1

theorem stride_pos {c : Config} (h : c.wf = true) : 1 ≤ c.stride := by
  simp only [Config.wf, Bool.and_eq_true, decide_eq_true_eq] at h; exact h.1.1.1.2

theorem memSize_stride_le {c : Config} (h : c.wf = true) : c.memSize + 2 * c.stride ≤ 2147483647 := by
  simp only [Config.wf, Bool.and_eq_true, decide_eq_true_eq] at h; exact h.1.1.2

theorem opcodeMap_wf {c : Config} (h : c.wf = true) : c.opcodeMap.wf = true := by
  simp only [Config.wf, Bool.and_eq_true, decide_eq_true_eq] at h; exact h.1.2

theorem inMemory_iff (s : State) (a : Word) :
    s.inMemory a = true ↔ 0 ≤ a.toInt ∧ a.toInt < s.cfg.memSize := by
  simp [State.inMemory]

theorem admits_iff_strict {s : State} (h : s.cfg.boundsMode = .strict) (a : Word) :
    s.admits a = true ↔ 0 ≤ a.toInt ∧ a.toInt < s.cfg.memSize := by
  simp [State.admits, h]

theorem admits_iff_referenceLe {s : State} (h : s.cfg.boundsMode = .referenceLe) (a : Word) :
    s.admits a = true ↔ 0 ≤ a.toInt ∧ a.toInt ≤ s.cfg.memSize := by
  simp [State.admits, h]

/-- Every address with a cell is admitted, under both bounds modes (R52). -/
theorem admits_of_inMemory {s : State} {a : Word} (h : s.inMemory a = true) : s.admits a = true := by
  rw [inMemory_iff] at h
  cases hm : s.cfg.boundsMode
  · exact (admits_iff_strict hm a).mpr h
  · exact (admits_iff_referenceLe hm a).mpr ⟨h.1, le_of_lt h.2⟩

/-- An admitted address without a cell is N, under REFERENCE_LE (R55). -/
theorem admitted_without_cell {s : State} {a : Word} (h : s.admits a = true) (h' : s.inMemory a = false) :
    s.cfg.boundsMode = .referenceLe ∧ a.toInt = s.cfg.memSize := by
  have hn : ¬ (s.inMemory a = true) := by simp [h']
  rw [inMemory_iff] at hn
  cases hm : s.cfg.boundsMode
  · exact absurd ((admits_iff_strict hm a).mp h) hn
  · have := (admits_iff_referenceLe hm a).mp h
    exact ⟨rfl, by omega⟩

/-- A Word that is not negative is its natural number. -/
theorem toInt_eq_toNat {a : Word} (h : 0 ≤ a.toInt) : a.toInt = a.toNat := by
  rw [BitVec.toInt_eq_toNat_cond] at h ⊢
  have := a.isLt
  split <;> simp_all
  omega

theorem toInt_of_lt {a : Word} (h : a.toNat < 2147483648) : a.toInt = a.toNat := by
  rw [BitVec.toInt_eq_toNat_cond]
  split <;> omega

/-- Under well-formed parameters the check on a cell is a bound on the natural number. -/
theorem inMemory_iff_toNat {s : State} (h : s.cfg.wf = true) (a : Word) :
    s.inMemory a = true ↔ a.toNat < s.cfg.memSize := by
  have hb := memSize_stride_le h
  rw [inMemory_iff]
  constructor
  · rintro ⟨h0, h1⟩
    rw [toInt_eq_toNat h0] at h1
    exact_mod_cast h1
  · intro h1
    rw [toInt_of_lt (by omega)]
    omega

theorem toNat_strideWord {s : State} (h : s.cfg.wf = true) : s.strideWord.toNat = s.cfg.stride := by
  have hb := memSize_stride_le h
  simp only [State.strideWord, BitVec.toNat_ofNat]
  omega

/-- `ip + STRIDE` never wraps while `ip` is below N + STRIDE (R25). -/
theorem toNat_add_stride {s : State} (h : s.cfg.wf = true) {a : Word} (ha : a.toNat < s.cfg.memSize + s.cfg.stride) :
    (a + s.strideWord).toNat = a.toNat + s.cfg.stride := by
  have hb := memSize_stride_le h
  rw [BitVec.toNat_add, toNat_strideWord h]
  omega

end Sys2Proof.Machine
end

