-- ==== Sys2Proof/Laws/Decode.lean ====
section
/-! SUPPORT. The laws of decoding: an opcode Word of a well-formed map selects exactly its opcode (R73), and every other Word
selects NOP (R74). -/

namespace Sys2Proof

theorem Opcode.mem_all (o : Opcode) : o ∈ Opcode.all := by cases o <;> simp [Opcode.all]

theorem OpcodeMap.wf_nop {m : OpcodeMap} (h : m.wf = true) : m.nop = 0#32 := by
  simp only [OpcodeMap.wf, Bool.and_eq_true, beq_iff_eq] at h
  exact h.1

/-- A well-formed map is injective (R8). -/
theorem OpcodeMap.value_injective {m : OpcodeMap} (h : m.wf = true) {o o' : Opcode} (heq : m.value o = m.value o') :
    o = o' := by
  simp only [OpcodeMap.wf, Bool.and_eq_true, decide_eq_true_eq] at h
  exact List.inj_on_of_nodup_map h.2 (Opcode.mem_all o) (Opcode.mem_all o') heq

/-- An opcode Word decodes to its opcode. -/
theorem decodeOpcode_value {m : OpcodeMap} (h : m.wf = true) (o : Opcode) : decodeOpcode m (m.value o) = o := by
  unfold decodeOpcode
  cases hf : Opcode.all.find? (fun o' => m.value o' == m.value o) with
  | none =>
    have := List.find?_eq_none.mp hf o (Opcode.mem_all o)
    simp at this
  | some o' =>
    have := List.find?_some hf
    exact OpcodeMap.value_injective h (by simpa using this)

/-- A Word that is no opcode value decodes to NOP. -/
theorem decodeOpcode_of_unrecognized {m : OpcodeMap} {w : Word} (h : ∀ o, m.value o ≠ w) : decodeOpcode m w = .nop := by
  unfold decodeOpcode
  rw [List.find?_eq_none.mpr (by simpa using fun o _ => h o)]
  rfl

theorem isOpcodeWord_iff {m : OpcodeMap} {w : Word} : isOpcodeWord m w = true ↔ ∃ o, m.value o = w := by
  simp [isOpcodeWord, Opcode.mem_all]

/-- A recognized Word is the value of the opcode it decodes to. -/
theorem value_decodeOpcode {m : OpcodeMap} {w : Word} (hm : m.wf = true) (h : isOpcodeWord m w = true) :
    m.value (decodeOpcode m w) = w := by
  obtain ⟨o, rfl⟩ := isOpcodeWord_iff.mp h
  rw [decodeOpcode_value hm]

/-- Only a Word that is an opcode value, or NOP, decodes to an opcode. -/
theorem decodeOpcode_eq {m : OpcodeMap} {w : Word} {o : Opcode} (hm : m.wf = true) (h : decodeOpcode m w = o) (ho : o ≠ .nop) :
    w = m.value o := by
  by_cases hw : isOpcodeWord m w = true
  · rw [← h, value_decodeOpcode hm hw]
  · exact absurd (decodeOpcode_of_unrecognized (fun o ho' => hw (isOpcodeWord_iff.mpr ⟨o, ho'⟩)) ▸ h) (Ne.symm ho)

@[simp] theorem opcode_withLiteral (v : Word) (o : Opcode) : (o.withLiteral v).opcode = o := by cases o <;> rfl

@[simp] theorem opcode_decodeSlots (m : OpcodeMap) (w v : Word) : (decodeSlots m w v).opcode = decodeOpcode m w := by
  simp [decodeSlots]

namespace Machine

@[simp] theorem opcode_instrAtIp (s : State) : s.instrAtIp.opcode = s.opcodeAtIp := by
  simp [State.instrAtIp, State.opcodeAtIp]

end Machine

end Sys2Proof
end

