-- ==== Sys2Proof/Laws/Ops.lean ====
section
/-! SUPPORT. What each primitive of R12 does, once: one equation for each of its cases, and one inversion that says everything
it can do when it answers a next state. -/

namespace Sys2Proof.Machine

variable {s t : State} {o : Opcode} {op : FatalOp} {k : FatalKind}

/-- A fatal error leaves nothing of the stack to be relied on (R153), so pops before it do not matter. -/
@[simp] theorem raised_withStack (st : List Word) : ({ s with stack := st } : State).raised k op = s.raised k op := rfl

/-! ## The stack -/

theorem pop_of_nil {f : Word → State → Result} (h : s.stack = []) :
    pop o s f = .next (s.raised .stackUnderflow (.op o)) := by
  simp [pop, h, raise]

theorem pop_of_cons {f : Word → State → Result} {a : Word} {rest : List Word} (h : s.stack = a :: rest) :
    pop o s f = f a { s with stack := rest } := by
  simp [pop, h]

theorem pop_next {f : Word → State → Result} (h : pop o s f = .next t) :
    (s.stack = [] ∧ t = s.raised .stackUnderflow (.op o)) ∨
    ∃ a rest, s.stack = a :: rest ∧ f a { s with stack := rest } = .next t := by
  cases hs : s.stack with
  | nil => rw [pop_of_nil hs] at h; exact .inl ⟨rfl, by simpa using h.symm⟩
  | cons a rest => rw [pop_of_cons hs] at h; exact .inr ⟨a, rest, rfl, h⟩

theorem push_of_room {f : State → Result} {v : Word} (h : s.hasRoom = true) :
    push v s f = f { s with stack := v :: s.stack } := by
  simp [push, h]

theorem push_of_full {f : State → Result} {v : Word} (h : s.hasRoom = false) :
    push v s f = .refused .resourceExhausted := by
  simp [push, h]

theorem push_next {f : State → Result} {v : Word} (h : push v s f = .next t) :
    s.hasRoom = true ∧ f { s with stack := v :: s.stack } = .next t := by
  cases hr : s.hasRoom with
  | false => rw [push_of_full hr] at h; cases h
  | true => rw [push_of_room hr] at h; exact ⟨rfl, h⟩

/-! ## Checked accesses -/

theorem boundsCheck_of_admits {f : State → Result} {a : Word} (h : s.admits a = true) : boundsCheck a o s f = f s := by
  simp [boundsCheck, h]

theorem boundsCheck_of_not {f : State → Result} {a : Word} (h : s.admits a = false) :
    boundsCheck a o s f = .next (s.raised .boundsViolation (.op o)) := by
  simp [boundsCheck, h, raise]

theorem boundsCheck_next {f : State → Result} {a : Word} (h : boundsCheck a o s f = .next t) :
    (s.admits a = false ∧ t = s.raised .boundsViolation (.op o)) ∨ (s.admits a = true ∧ f s = .next t) := by
  cases ha : s.admits a with
  | false => rw [boundsCheck_of_not ha] at h; exact .inl ⟨rfl, by simpa using h.symm⟩
  | true => rw [boundsCheck_of_admits ha] at h; exact .inr ⟨rfl, h⟩

theorem memRead_of_inMemory {f : Word → Result} {a : Word} (h : s.inMemory a = true) : memRead a s f = f (s.cell a) := by
  simp [memRead, h]

theorem memRead_of_not {f : Word → Result} {a : Word} (h : s.inMemory a = false) :
    memRead a s f = .refused .undefinedAccessAtN := by
  simp [memRead, h]

theorem memRead_next {f : Word → Result} {a : Word} (h : memRead a s f = .next t) :
    s.inMemory a = true ∧ f (s.cell a) = .next t := by
  cases ha : s.inMemory a with
  | false => rw [memRead_of_not ha] at h; cases h
  | true => rw [memRead_of_inMemory ha] at h; exact ⟨rfl, h⟩

theorem memWrite_of_inMemory {f : State → Result} {a v : Word} (h : s.inMemory a = true) :
    memWrite a v s f = f (s.setCell a v) := by
  simp [memWrite, h]

theorem memWrite_of_not {f : State → Result} {a v : Word} (h : s.inMemory a = false) :
    memWrite a v s f = .refused .undefinedAccessAtN := by
  simp [memWrite, h]

theorem memWrite_next {f : State → Result} {a v : Word} (h : memWrite a v s f = .next t) :
    s.inMemory a = true ∧ f (s.setCell a v) = .next t := by
  cases ha : s.inMemory a with
  | false => rw [memWrite_of_not ha] at h; cases h
  | true => rw [memWrite_of_inMemory ha] at h; exact ⟨rfl, h⟩

theorem fetch_of_inMemory {f : Word → Result} {a : Word} (h : s.inMemory a = true) : fetch a op s f = f (s.cell a) := by
  simp [fetch, h]

theorem fetch_of_not {f : Word → Result} {a : Word} (h : s.inMemory a = false) :
    fetch a op s f = .next (s.raised .fetchOutOfBounds op) := by
  simp [fetch, h, raise]

theorem fetch_next {f : Word → Result} {a : Word} (h : fetch a op s f = .next t) :
    (s.inMemory a = false ∧ t = s.raised .fetchOutOfBounds op) ∨ (s.inMemory a = true ∧ f (s.cell a) = .next t) := by
  cases ha : s.inMemory a with
  | false => rw [fetch_of_not ha] at h; exact .inl ⟨rfl, by simpa using h.symm⟩
  | true => rw [fetch_of_inMemory ha] at h; exact .inr ⟨rfl, h⟩

/-! ## The ports -/

theorem inByte_of_none {f : InAnswer → State → Result} (h : s.input.take.1 = none) : inByte s f = .next s.inputPolled.heldAtIn := by
  simp [inByte, h]

theorem inByte_of_some {f : InAnswer → State → Result} {a : InAnswer} (h : s.input.take.1 = some a) :
    inByte s f = f a s.inputPolled.answered := by
  simp [inByte, h]

theorem inByte_next {f : InAnswer → State → Result} (h : inByte s f = .next t) :
    (s.input.take.1 = none ∧ t = s.inputPolled.heldAtIn) ∨ ∃ a, s.input.take.1 = some a ∧ f a s.inputPolled.answered = .next t := by
  cases hi : s.input.take.1 with
  | none => rw [inByte_of_none hi] at h; exact .inl ⟨rfl, by simpa using h.symm⟩
  | some a => rw [inByte_of_some hi] at h; exact .inr ⟨a, rfl, h⟩

theorem outByte_of_false {b : Byte} {start : State} {f : State → Result} (h : s.sink.take.1 = false) :
    outByte b start s f = .next (start.sinkPolled.heldAtOut b) := by
  simp [outByte, h]

theorem outByte_of_true {b : Byte} {start : State} {f : State → Result} (h : s.sink.take.1 = true) :
    outByte b start s f = f (s.sinkPolled.delivered b) := by
  simp [outByte, h]

theorem outByte_next {b : Byte} {start : State} {f : State → Result} (h : outByte b start s f = .next t) :
    (s.sink.take.1 = false ∧ t = start.sinkPolled.heldAtOut b) ∨ (s.sink.take.1 = true ∧ f (s.sinkPolled.delivered b) = .next t) := by
  cases hi : s.sink.take.1 with
  | false => rw [outByte_of_false hi] at h; exact .inl ⟨rfl, by simpa using h.symm⟩
  | true => rw [outByte_of_true hi] at h; exact .inr ⟨rfl, h⟩

end Sys2Proof.Machine
end

