-- ==== Sys2Proof/Laws/Exec.lean ====
section
/-! SUPPORT. For each instruction one inversion: everything it can do when it answers a next state. Invariants and frames follow
from these by cases, with no meaning unfolded again. -/

namespace Sys2Proof.Machine

variable {s t : State}

/-- Two next states that are equal outcomes are equal. -/
theorem next_eq (h : (.next s : Result) = .next t) : t = s := (Host.Outcome.next.inj h).symm

theorem execNop_next (h : execNop s = .next t) : t = s.advance := by
  exact next_eq h

theorem binary_next {o : Opcode} {f : Word → Word → Word} (h : binary o f s = .next t) :
    (s.stack.length < 2 ∧ t = s.raised .stackUnderflow (.op o)) ∨
    ∃ a b rest, s.stack = a :: b :: rest ∧ ({ s with stack := rest } : State).hasRoom = true ∧
      t = ({ s with stack := f a b :: rest } : State).advance := by
  obtain ⟨hs, rfl⟩ | ⟨a, st, hs, h⟩ := pop_next h
  · exact .inl ⟨by simp [hs], rfl⟩
  obtain ⟨hs', rfl⟩ | ⟨b, rest, hs', h⟩ := pop_next h
  · refine .inl ⟨?_, rfl⟩
    dsimp only at hs'
    simp [hs, hs']
  · dsimp only at hs'
    obtain ⟨hr, h⟩ := push_next h
    exact .inr ⟨a, b, rest, by rw [hs, hs'], hr, next_eq h⟩

theorem unary_next {o : Opcode} {f : Word → Word} (h : unary o f s = .next t) :
    (s.stack = [] ∧ t = s.raised .stackUnderflow (.op o)) ∨
    ∃ a rest, s.stack = a :: rest ∧ ({ s with stack := rest } : State).hasRoom = true ∧
      t = ({ s with stack := f a :: rest } : State).advance := by
  obtain ⟨hs, rfl⟩ | ⟨a, rest, hs, h⟩ := pop_next h
  · exact .inl ⟨hs, rfl⟩
  · obtain ⟨hr, h⟩ := push_next h
    exact .inr ⟨a, rest, hs, hr, next_eq h⟩

theorem finishIn_next {r : InAnswer} (h : finishIn r s = .next t) :
    s.hasRoom = true ∧ t = ({ s with stack := r.word :: s.stack } : State).advance := by
  obtain ⟨hr, h⟩ := push_next h
  exact ⟨hr, next_eq h⟩

theorem execIn_next (h : execIn s = .next t) :
    (s.input.take.1 = none ∧ t = s.inputPolled.heldAtIn) ∨
    ∃ r, s.input.take.1 = some r ∧ s.hasRoom = true ∧
      t = ({ s.inputPolled.answered with stack := r.word :: s.stack } : State).advance := by
  obtain ⟨hi, rfl⟩ | ⟨r, hi, h⟩ := inByte_next h
  · exact .inl ⟨hi, rfl⟩
  · obtain ⟨hr, rfl⟩ := finishIn_next h
    exact .inr ⟨r, hi, hr, rfl⟩

theorem execOut_next (h : execOut s = .next t) :
    (s.stack = [] ∧ t = s.raised .stackUnderflow (.op .out)) ∨
    ∃ a rest, s.stack = a :: rest ∧
      ((s.sink.take.1 = false ∧ t = s.sinkPolled.heldAtOut (lowByte a)) ∨
       (s.sink.take.1 = true ∧ t = (({ s.sinkPolled with stack := rest } : State).delivered (lowByte a)).advance)) := by
  obtain ⟨hs, rfl⟩ | ⟨a, rest, hs, h⟩ := pop_next h
  · exact .inl ⟨hs, rfl⟩
  · obtain ⟨hk, rfl⟩ | ⟨hk, h⟩ := outByte_next h
    · exact .inr ⟨a, rest, hs, .inl ⟨hk, rfl⟩⟩
    · exact .inr ⟨a, rest, hs, .inr ⟨hk, next_eq h⟩⟩

theorem finishOut_next {b : Byte} (h : finishOut b s = .next t) :
    (s.stack = [] ∧ t = s.raised .stackUnderflow (.op .out)) ∨
    ∃ a rest, s.stack = a :: rest ∧ t = (({ s with stack := rest } : State).delivered b).advance := by
  obtain ⟨hs, rfl⟩ | ⟨a, rest, hs, h⟩ := pop_next h
  · exact .inl ⟨hs, rfl⟩
  · exact .inr ⟨a, rest, hs, next_eq h⟩

theorem execLoad_next (h : execLoad s = .next t) :
    (s.stack = [] ∧ t = s.raised .stackUnderflow (.op .load)) ∨
    ∃ a rest, s.stack = a :: rest ∧
      ((s.admits a = false ∧ t = s.raised .boundsViolation (.op .load)) ∨
       (s.inMemory a = true ∧ ({ s with stack := rest } : State).hasRoom = true ∧
        t = ({ s with stack := s.cell a :: rest } : State).advance)) := by
  obtain ⟨hs, rfl⟩ | ⟨a, rest, hs, h⟩ := pop_next h
  · exact .inl ⟨hs, rfl⟩
  · obtain ⟨ha, rfl⟩ | ⟨_, h⟩ := boundsCheck_next h
    · exact .inr ⟨a, rest, hs, .inl ⟨ha, rfl⟩⟩
    · obtain ⟨hm, h⟩ := memRead_next h
      obtain ⟨hr, h⟩ := push_next h
      exact .inr ⟨a, rest, hs, .inr ⟨hm, hr, next_eq h⟩⟩

theorem execStor_next (h : execStor s = .next t) :
    (s.stack.length < 2 ∧ t = s.raised .stackUnderflow (.op .stor)) ∨
    ∃ a v rest, s.stack = a :: v :: rest ∧
      ((s.admits a = false ∧ t = s.raised .boundsViolation (.op .stor)) ∨
       (s.inMemory a = true ∧ t = (({ s with stack := rest } : State).setCell a v).advance)) := by
  obtain ⟨hs, rfl⟩ | ⟨a, st, hs, h⟩ := pop_next h
  · exact .inl ⟨by simp [hs], rfl⟩
  obtain ⟨hs', rfl⟩ | ⟨v, rest, hs', h⟩ := pop_next h
  · refine .inl ⟨?_, rfl⟩
    dsimp only at hs'
    simp [hs, hs']
  · dsimp only at hs'
    obtain ⟨ha, rfl⟩ | ⟨_, h⟩ := boundsCheck_next h
    · exact .inr ⟨a, v, rest, by rw [hs, hs'], .inl ⟨ha, rfl⟩⟩
    · obtain ⟨hm, h⟩ := memWrite_next h
      exact .inr ⟨a, v, rest, by rw [hs, hs'], .inr ⟨hm, next_eq h⟩⟩

theorem execJmp_next (h : execJmp s = .next t) :
    (s.stack = [] ∧ t = s.raised .stackUnderflow (.op .jmp)) ∨
    ∃ a rest, s.stack = a :: rest ∧
      ((s.admits a = false ∧ t = s.raised .boundsViolation (.op .jmp)) ∨
       (s.admits a = true ∧ a = s.ip ∧ t = { s with stack := rest, rs := .halted }) ∨
       (s.admits a = true ∧ a ≠ s.ip ∧ t = { s with stack := rest, ip := a })) := by
  obtain ⟨hs, rfl⟩ | ⟨a, rest, hs, h⟩ := pop_next h
  · exact .inl ⟨hs, rfl⟩
  · obtain ⟨ha, rfl⟩ | ⟨ha, h⟩ := boundsCheck_next h
    · exact .inr ⟨a, rest, hs, .inl ⟨ha, rfl⟩⟩
    · dsimp only at h
      split at h
      · next he => exact .inr ⟨a, rest, hs, .inr (.inl ⟨ha, he, next_eq h⟩)⟩
      · next he => exact .inr ⟨a, rest, hs, .inr (.inr ⟨ha, he, next_eq h⟩)⟩

theorem execJz_next (h : execJz s = .next t) :
    (s.stack = [] ∧ t = s.raised .stackUnderflow (.op .jz)) ∨
    ∃ a rest, s.stack = a :: rest ∧
      ((a ≠ 0#32 ∧ t = ({ s with stack := rest } : State).advance) ∨
       (a = 0#32 ∧ s.admits a = true ∧ t = { s with stack := rest, ip := a }) ∨
       (a = 0#32 ∧ s.admits a = false ∧ t = s.raised .boundsViolation (.op .jz))) := by
  obtain ⟨hs, rfl⟩ | ⟨a, rest, hs, h⟩ := pop_next h
  · exact .inl ⟨hs, rfl⟩
  · refine .inr ⟨a, rest, hs, ?_⟩
    split at h
    · next hz =>
      have hz : a = 0#32 := by simpa [isZero] using hz
      obtain ⟨ha, rfl⟩ | ⟨ha, h⟩ := boundsCheck_next h
      · exact .inr (.inr ⟨hz, ha, rfl⟩)
      · exact .inr (.inl ⟨hz, ha, next_eq h⟩)
    · next hz =>
      exact .inl ⟨by simpa [isZero] using hz, next_eq h⟩

theorem execPush_next {v : Word} (h : execPush v s = .next t) :
    (s.inMemory (s.ip + s.strideWord) = false ∧ t = s.raised .fetchOutOfBounds (.op .push)) ∨
    (s.inMemory (s.ip + s.strideWord) = true ∧ s.hasRoom = true ∧
      t = ({ s with stack := v :: s.stack } : State).advance.advance) := by
  obtain ⟨hm, rfl⟩ | ⟨hm, h⟩ := fetch_next h
  · exact .inl ⟨hm, rfl⟩
  · obtain ⟨hr, h⟩ := push_next h
    exact .inr ⟨hm, hr, next_eq h⟩

theorem execDup_next (h : execDup s = .next t) :
    (s.stack = [] ∧ t = s.raised .stackUnderflow (.op .dup)) ∨
    ∃ a rest, s.stack = a :: rest ∧ s.hasRoom = true ∧
      t = ({ s with stack := a :: a :: rest } : State).advance := by
  obtain ⟨hs, rfl⟩ | ⟨a, rest, hs, h⟩ := pop_next h
  · exact .inl ⟨hs, rfl⟩
  · obtain ⟨_, h⟩ := push_next h
    obtain ⟨hr, h⟩ := push_next h
    refine .inr ⟨a, rest, hs, ?_, next_eq h⟩
    simpa [State.hasRoom, hs] using hr

end Sys2Proof.Machine
end

