-- ==== Sys2Proof/Laws/Memory.lean ====
section
/-! SUPPORT. The laws of memory: read after write, every other cell as before, and the canonical form is kept (R50, R53,
R54). -/

namespace Sys2Proof.Machine

@[simp] theorem Memory.read_nil (a : Nat) : Memory.read [] a = 0#32 := rfl

theorem Memory.wfFrom_mono {m : Memory} {lo lo' : Nat} (hle : lo' ≤ lo) (h : Memory.wfFrom lo m = true) :
    Memory.wfFrom lo' m = true := by
  cases m with
  | nil => rfl
  | cons c m =>
    obtain ⟨b, w⟩ := c
    simp only [Memory.wfFrom, Bool.and_eq_true, decide_eq_true_eq] at h ⊢
    exact ⟨⟨le_trans hle h.1.1, h.1.2⟩, h.2⟩

/-- A cell below every listed address holds 0. -/
theorem Memory.read_below {m : Memory} {lo a : Nat} (h : Memory.wfFrom lo m = true) (hlt : a < lo) : m.read a = 0#32 := by
  induction m generalizing lo with
  | nil => rfl
  | cons c m ih =>
    obtain ⟨b, w⟩ := c
    simp only [Memory.wfFrom, Bool.and_eq_true, decide_eq_true_eq] at h
    have hne : b ≠ a := by omega
    simp only [Memory.read, hne, if_false]
    exact ih h.2 (by omega)

/-- What a write leaves at every address. -/
theorem Memory.read_write_from {m : Memory} {lo a : Nat} (v : Word) (h : Memory.wfFrom lo m = true) (b : Nat) :
    (m.write a v).read b = if b = a then v else m.read b := by
  induction m generalizing lo with
  | nil =>
    by_cases hv : v = 0#32
    · simp [Memory.write, hv]
    · by_cases hb : a = b
      · simp [Memory.write, hv, Memory.read, hb]
      · simp [Memory.write, hv, Memory.read, hb, Ne.symm hb]
  | cons c m ih =>
    obtain ⟨d, w⟩ := c
    simp only [Memory.wfFrom, Bool.and_eq_true, decide_eq_true_eq] at h
    have below : ∀ x, x ≤ d → Memory.read m x = 0#32 := fun x hx => Memory.read_below h.2 (by omega)
    unfold Memory.write
    split
    · next hlt =>
      by_cases hv : v = 0#32
      · by_cases hb : b = a
        · subst hb
          have hne : d ≠ b := by omega
          simp [hv, Memory.read, below b (by omega), hne]
        · simp [hv, hb]
      · by_cases hb : b = a
        · subst hb; simp [hv, Memory.read]
        · simp [hv, hb, Memory.read, Ne.symm hb]
    · next hlt =>
      split
      · next heq =>
        subst heq
        by_cases hv : v = 0#32
        · by_cases hb : b = a
          · subst hb; simp [hv, below b (by omega)]
          · simp [hv, hb, Memory.read, Ne.symm hb]
        · by_cases hb : b = a
          · subst hb; simp [hv, Memory.read]
          · simp [hv, hb, Memory.read, Ne.symm hb]
      · next hne =>
        simp only [Memory.read]
        rw [ih h.2]
        by_cases hb : b = a
        · subst hb; simp [Ne.symm hne]
        · simp [hb]

/-- Read after write (R53, R54). -/
theorem Memory.read_write {m : Memory} (h : m.wf = true) (a : Nat) (v : Word) (b : Nat) :
    (m.write a v).read b = if b = a then v else m.read b :=
  Memory.read_write_from v h b

theorem Memory.read_write_same {m : Memory} (h : m.wf = true) (a : Nat) (v : Word) : (m.write a v).read a = v := by
  simp [Memory.read_write h]

theorem Memory.read_write_other {m : Memory} (h : m.wf = true) {a b : Nat} (v : Word) (hne : b ≠ a) :
    (m.write a v).read b = m.read b := by
  simp [Memory.read_write h, hne]

theorem Memory.wfFrom_write {m : Memory} {lo a : Nat} (v : Word) (h : Memory.wfFrom lo m = true) (hlo : lo ≤ a) :
    Memory.wfFrom lo (m.write a v) = true := by
  induction m generalizing lo with
  | nil => by_cases hv : v = 0#32 <;> simp [Memory.write, hv, Memory.wfFrom, hlo]
  | cons c m ih =>
    obtain ⟨d, w⟩ := c
    have h' := h
    simp only [Memory.wfFrom, Bool.and_eq_true, decide_eq_true_eq] at h
    unfold Memory.write
    split
    · next hlt =>
      by_cases hv : v = 0#32
      · simpa [hv] using h'
      · simp [hv, Memory.wfFrom, hlo, h.2, Nat.succ_le_of_lt hlt]
        simpa using h.1.2
    · next hlt =>
      split
      · next heq =>
        subst heq
        by_cases hv : v = 0#32
        · simpa [hv] using Memory.wfFrom_mono (by omega) h.2
        · simp [hv, Memory.wfFrom, hlo, h.2]
      · next hne =>
        simp only [Memory.wfFrom, Bool.and_eq_true, decide_eq_true_eq]
        exact ⟨h.1, ih h.2 (by omega)⟩

/-- A write keeps the canonical form. -/
theorem Memory.wf_write {m : Memory} (h : m.wf = true) (a : Nat) (v : Word) : (m.write a v).wf = true :=
  Memory.wfFrom_write v h (Nat.zero_le _)

/-- A write to an existing cell lists no cell outside [0, n). -/
theorem Memory.within_write {n : Nat} {m : Memory} (h : m.within n = true) {a : Nat} (ha : a < n) (v : Word) :
    (m.write a v).within n = true := by
  induction m with
  | nil => by_cases hv : v = 0#32 <;> simp [Memory.write, hv, Memory.within, ha]
  | cons c m ih =>
    obtain ⟨d, w⟩ := c
    simp only [Memory.within, List.all_cons, Bool.and_eq_true, decide_eq_true_eq] at h ih
    unfold Memory.write
    split
    · by_cases hv : v = 0#32 <;> simp [hv, Memory.within, ha, h.1] <;> simpa using h.2
    · split
      · by_cases hv : v = 0#32 <;> simp [hv, Memory.within, ha] <;> simpa using h.2
      · simp only [Memory.within, List.all_cons, Bool.and_eq_true, decide_eq_true_eq]
        exact ⟨h.1, ih h.2⟩

/-- In canonical form, equal reads are equal memories. -/
theorem Memory.eq_of_read_from {m m' : Memory} {lo : Nat} (h : Memory.wfFrom lo m = true) (h' : Memory.wfFrom lo m' = true)
    (heq : ∀ a, m.read a = m'.read a) : m = m' := by
  induction m generalizing lo m' with
  | nil =>
    cases m' with
    | nil => rfl
    | cons c m' =>
      obtain ⟨d, w⟩ := c
      simp only [Memory.wfFrom, Bool.and_eq_true] at h'
      have := heq d
      simp [Memory.read] at this
      simp [← this] at h'
  | cons c m ih =>
    obtain ⟨d, w⟩ := c
    simp only [Memory.wfFrom, Bool.and_eq_true, decide_eq_true_eq, bne_iff_ne] at h
    cases m' with
    | nil =>
      have := heq d
      simp [Memory.read] at this
      exact absurd this h.1.2
    | cons c' m' =>
      obtain ⟨d', w'⟩ := c'
      simp only [Memory.wfFrom, Bool.and_eq_true, decide_eq_true_eq, bne_iff_ne] at h'
      have hd : d = d' := by
        rcases lt_trichotomy d d' with hlt | heq' | hlt
        · have := heq d
          have hne : d' ≠ d := by omega
          simp [Memory.read, hne, Memory.read_below h'.2 (by omega : d < d' + 1)] at this
          exact absurd this h.1.2
        · exact heq'
        · have := heq d'
          have hne : d ≠ d' := by omega
          simp [Memory.read, hne, Memory.read_below h.2 (by omega : d' < d + 1)] at this
          exact absurd this.symm h'.1.2
      subst hd
      have hw : w = w' := by simpa [Memory.read] using heq d
      subst hw
      congr 1
      refine ih h.2 h'.2 (fun a => ?_)
      by_cases hda : d = a
      · subst hda
        rw [Memory.read_below h.2 (by omega), Memory.read_below h'.2 (by omega)]
      · simpa [Memory.read, hda] using heq a

/-- Equal memories are equal data: two memories in canonical form that read the same are the same list. -/
theorem Memory.eq_of_read {m m' : Memory} (h : m.wf = true) (h' : m'.wf = true) (heq : ∀ a, m.read a = m'.read a) : m = m' :=
  Memory.eq_of_read_from h h' heq

end Sys2Proof.Machine
end

