-- ==== Sys2Proof/Laws/PerInstr.lean ====
section
/-! SUPPORT. Statements about every instruction as syntax, one lemma for each constructor. -/

namespace Sys2Proof.Laws

namespace EncodedSlots

/-- R70, R76: an instruction takes as many slots as its opcode Word alone says: PUSH two, every other one. -/
def Statement (i : Instr) : Prop := ∀ m : OpcodeMap, (encode m i).length = i.opcode.slots

theorem nop : Statement .nop := fun _ => rfl
theorem add : Statement .add := fun _ => rfl
theorem sub : Statement .sub := fun _ => rfl
theorem and : Statement .and := fun _ => rfl
theorem or : Statement .or := fun _ => rfl
theorem xor : Statement .xor := fun _ => rfl
theorem not : Statement .not := fun _ => rfl
theorem inp : Statement .inp := fun _ => rfl
theorem out : Statement .out := fun _ => rfl
theorem load : Statement .load := fun _ => rfl
theorem stor : Statement .stor := fun _ => rfl
theorem jmp : Statement .jmp := fun _ => rfl
theorem jz : Statement .jz := fun _ => rfl
theorem push (literal : Word) : Statement (.push literal) := fun _ => rfl
theorem dup : Statement .dup := fun _ => rfl

end EncodedSlots

namespace EncodedOpcode

/-- R70, R72: the first slot of an instruction holds the map's value of its opcode. -/
def Statement (i : Instr) : Prop := ∀ m : OpcodeMap, (encode m i).head? = some (m.value i.opcode)

theorem nop : Statement .nop := fun _ => rfl
theorem add : Statement .add := fun _ => rfl
theorem sub : Statement .sub := fun _ => rfl
theorem and : Statement .and := fun _ => rfl
theorem or : Statement .or := fun _ => rfl
theorem xor : Statement .xor := fun _ => rfl
theorem not : Statement .not := fun _ => rfl
theorem inp : Statement .inp := fun _ => rfl
theorem out : Statement .out := fun _ => rfl
theorem load : Statement .load := fun _ => rfl
theorem stor : Statement .stor := fun _ => rfl
theorem jmp : Statement .jmp := fun _ => rfl
theorem jz : Statement .jz := fun _ => rfl
theorem push (literal : Word) : Statement (.push literal) := fun _ => rfl
theorem dup : Statement .dup := fun _ => rfl

end EncodedOpcode

end Sys2Proof.Laws
end

