-- ==== Sys2Proof/Laws/Run.lean ====
section
/-! SUPPORT. Runs of many steps, one step at a time. -/

namespace Sys2Proof.Machine

variable {s t : State}

@[simp] theorem runSteps_zero (s : State) : runSteps 0 s = .next s := rfl

/-- A run of one more step, when that step answers a next state. -/
theorem runSteps_succ_of_next {n : Nat} (h : step s = .next t) : runSteps (n + 1) s = runSteps n t := by
  have h' : Sys2Proof.core.step s = .next t := h
  simp only [runSteps, Host.Core.run, h']
  rfl

/-- A run that stops at its first step. -/
theorem runSteps_succ_of_refused {n : Nat} {r : Refusal} (h : step s = .refused r) :
    runSteps (n + 1) s = .refused r := by
  have h' : Sys2Proof.core.step s = .refused r := h
  simp only [runSteps, Host.Core.run, h']
  rfl

/-- A run of `n + m` steps is a run of `m` steps from where a run of `n` steps leads. -/
theorem runSteps_add {n m : Nat} (h : runSteps n s = .next t) : runSteps (n + m) s = runSteps m t := by
  induction n generalizing s with
  | zero =>
    have e : s = t := Host.Outcome.next.inj h
    rw [e, Nat.zero_add]
  | succ n ih =>
    rw [Nat.succ_add]
    cases hs : step s with
    | next u => rw [runSteps_succ_of_next hs] at h ⊢; exact ih h
    | fault r => cases r
    | refused r => rw [runSteps_succ_of_refused hs] at h; cases h

end Sys2Proof.Machine
end

