-- ==== Sys2Proof/Laws/State.lean ====
section
/-! SUPPORT. One lemma for each field of each named update of State, so that no proof unfolds a record update. -/

namespace Sys2Proof.Machine

/-! ### `advance`: The state after one `Advance()`. -/

@[simp] theorem advance_mem (s : State) : s.advance.mem = s.mem := rfl
@[simp] theorem advance_stack (s : State) : s.advance.stack = s.stack := rfl
@[simp] theorem advance_ip (s : State) : s.advance.ip = s.ip + s.strideWord := rfl
@[simp] theorem advance_rs (s : State) : s.advance.rs = s.rs := rfl
@[simp] theorem advance_fatal (s : State) : s.advance.fatal = s.fatal := rfl
@[simp] theorem advance_inReq (s : State) : s.advance.inReq = s.inReq := rfl
@[simp] theorem advance_outReq (s : State) : s.advance.outReq = s.outReq := rfl
@[simp] theorem advance_cfg (s : State) : s.advance.cfg = s.cfg := rfl
@[simp] theorem advance_input (s : State) : s.advance.input = s.input := rfl
@[simp] theorem advance_sink (s : State) : s.advance.sink = s.sink := rfl
@[simp] theorem advance_cmds (s : State) : s.advance.cmds = s.cmds := rfl
@[simp] theorem advance_out (s : State) : s.advance.out = s.out := rfl
@[simp] theorem advance_trace (s : State) : s.advance.trace = s.trace := rfl
@[simp] theorem advance_diag (s : State) : s.advance.diag = s.diag := rfl
@[simp] theorem advance_freeCount (s : State) : s.advance.freeCount = s.freeCount := rfl

/-! ### `setCell`: The state after one cell was set. -/

@[simp] theorem setCell_mem (s : State) (a v : Word) : (s.setCell a v).mem = s.mem.write a.toNat v := rfl
@[simp] theorem setCell_stack (s : State) (a v : Word) : (s.setCell a v).stack = s.stack := rfl
@[simp] theorem setCell_ip (s : State) (a v : Word) : (s.setCell a v).ip = s.ip := rfl
@[simp] theorem setCell_rs (s : State) (a v : Word) : (s.setCell a v).rs = s.rs := rfl
@[simp] theorem setCell_fatal (s : State) (a v : Word) : (s.setCell a v).fatal = s.fatal := rfl
@[simp] theorem setCell_inReq (s : State) (a v : Word) : (s.setCell a v).inReq = s.inReq := rfl
@[simp] theorem setCell_outReq (s : State) (a v : Word) : (s.setCell a v).outReq = s.outReq := rfl
@[simp] theorem setCell_cfg (s : State) (a v : Word) : (s.setCell a v).cfg = s.cfg := rfl
@[simp] theorem setCell_input (s : State) (a v : Word) : (s.setCell a v).input = s.input := rfl
@[simp] theorem setCell_sink (s : State) (a v : Word) : (s.setCell a v).sink = s.sink := rfl
@[simp] theorem setCell_cmds (s : State) (a v : Word) : (s.setCell a v).cmds = s.cmds := rfl
@[simp] theorem setCell_out (s : State) (a v : Word) : (s.setCell a v).out = s.out := rfl
@[simp] theorem setCell_trace (s : State) (a v : Word) : (s.setCell a v).trace = s.trace := rfl
@[simp] theorem setCell_diag (s : State) (a v : Word) : (s.setCell a v).diag = s.diag := rfl
@[simp] theorem setCell_freeCount (s : State) (a v : Word) : (s.setCell a v).freeCount = s.freeCount := rfl

/-! ### `raised`: The state a fatal error enters. -/

@[simp] theorem raised_mem (s : State) (k : FatalKind) (op : FatalOp) : (s.raised k op).mem = s.mem := rfl
@[simp] theorem raised_stack (s : State) (k : FatalKind) (op : FatalOp) : (s.raised k op).stack = Config.freeStack s.freeCount := rfl
@[simp] theorem raised_ip (s : State) (k : FatalKind) (op : FatalOp) : (s.raised k op).ip = s.ip := rfl
@[simp] theorem raised_rs (s : State) (k : FatalKind) (op : FatalOp) : (s.raised k op).rs = .fatal := rfl
@[simp] theorem raised_fatal (s : State) (k : FatalKind) (op : FatalOp) : (s.raised k op).fatal = some { kind := k, opcode := op, ip := s.ip } := rfl
@[simp] theorem raised_inReq (s : State) (k : FatalKind) (op : FatalOp) : (s.raised k op).inReq = s.inReq := rfl
@[simp] theorem raised_outReq (s : State) (k : FatalKind) (op : FatalOp) : (s.raised k op).outReq = s.outReq := rfl
@[simp] theorem raised_cfg (s : State) (k : FatalKind) (op : FatalOp) : (s.raised k op).cfg = s.cfg := rfl
@[simp] theorem raised_input (s : State) (k : FatalKind) (op : FatalOp) : (s.raised k op).input = s.input := rfl
@[simp] theorem raised_sink (s : State) (k : FatalKind) (op : FatalOp) : (s.raised k op).sink = s.sink := rfl
@[simp] theorem raised_cmds (s : State) (k : FatalKind) (op : FatalOp) : (s.raised k op).cmds = s.cmds := rfl
@[simp] theorem raised_out (s : State) (k : FatalKind) (op : FatalOp) : (s.raised k op).out = s.out := rfl
@[simp] theorem raised_trace (s : State) (k : FatalKind) (op : FatalOp) : (s.raised k op).trace = s.trace := rfl
@[simp] theorem raised_diag (s : State) (k : FatalKind) (op : FatalOp) : (s.raised k op).diag = s.diag ++ [{ kind := k, opcode := op, ip := s.ip }] := rfl
@[simp] theorem raised_freeCount (s : State) (k : FatalKind) (op : FatalOp) : (s.raised k op).freeCount = s.freeCount + 1 := rfl

/-! ### `inputPolled`: The state after a poll of the input port. -/

@[simp] theorem inputPolled_mem (s : State) : s.inputPolled.mem = s.mem := rfl
@[simp] theorem inputPolled_stack (s : State) : s.inputPolled.stack = s.stack := rfl
@[simp] theorem inputPolled_ip (s : State) : s.inputPolled.ip = s.ip := rfl
@[simp] theorem inputPolled_rs (s : State) : s.inputPolled.rs = s.rs := rfl
@[simp] theorem inputPolled_fatal (s : State) : s.inputPolled.fatal = s.fatal := rfl
@[simp] theorem inputPolled_inReq (s : State) : s.inputPolled.inReq = s.inReq := rfl
@[simp] theorem inputPolled_outReq (s : State) : s.inputPolled.outReq = s.outReq := rfl
@[simp] theorem inputPolled_cfg (s : State) : s.inputPolled.cfg = s.cfg := rfl
@[simp] theorem inputPolled_input (s : State) : s.inputPolled.input = s.input.take.2 := rfl
@[simp] theorem inputPolled_sink (s : State) : s.inputPolled.sink = s.sink := rfl
@[simp] theorem inputPolled_cmds (s : State) : s.inputPolled.cmds = s.cmds := rfl
@[simp] theorem inputPolled_out (s : State) : s.inputPolled.out = s.out := rfl
@[simp] theorem inputPolled_trace (s : State) : s.inputPolled.trace = s.trace := rfl
@[simp] theorem inputPolled_diag (s : State) : s.inputPolled.diag = s.diag := rfl
@[simp] theorem inputPolled_freeCount (s : State) : s.inputPolled.freeCount = s.freeCount := rfl

/-! ### `sinkPolled`: The state after a poll of the output port. -/

@[simp] theorem sinkPolled_mem (s : State) : s.sinkPolled.mem = s.mem := rfl
@[simp] theorem sinkPolled_stack (s : State) : s.sinkPolled.stack = s.stack := rfl
@[simp] theorem sinkPolled_ip (s : State) : s.sinkPolled.ip = s.ip := rfl
@[simp] theorem sinkPolled_rs (s : State) : s.sinkPolled.rs = s.rs := rfl
@[simp] theorem sinkPolled_fatal (s : State) : s.sinkPolled.fatal = s.fatal := rfl
@[simp] theorem sinkPolled_inReq (s : State) : s.sinkPolled.inReq = s.inReq := rfl
@[simp] theorem sinkPolled_outReq (s : State) : s.sinkPolled.outReq = s.outReq := rfl
@[simp] theorem sinkPolled_cfg (s : State) : s.sinkPolled.cfg = s.cfg := rfl
@[simp] theorem sinkPolled_input (s : State) : s.sinkPolled.input = s.input := rfl
@[simp] theorem sinkPolled_sink (s : State) : s.sinkPolled.sink = s.sink.take.2 := rfl
@[simp] theorem sinkPolled_cmds (s : State) : s.sinkPolled.cmds = s.cmds := rfl
@[simp] theorem sinkPolled_out (s : State) : s.sinkPolled.out = s.out := rfl
@[simp] theorem sinkPolled_trace (s : State) : s.sinkPolled.trace = s.trace := rfl
@[simp] theorem sinkPolled_diag (s : State) : s.sinkPolled.diag = s.diag := rfl
@[simp] theorem sinkPolled_freeCount (s : State) : s.sinkPolled.freeCount = s.freeCount := rfl

/-! ### `heldAtIn`: The state of a core held at IN. -/

@[simp] theorem heldAtIn_mem (s : State) : s.heldAtIn.mem = s.mem := rfl
@[simp] theorem heldAtIn_stack (s : State) : s.heldAtIn.stack = s.stack := rfl
@[simp] theorem heldAtIn_ip (s : State) : s.heldAtIn.ip = s.ip := rfl
@[simp] theorem heldAtIn_rs (s : State) : s.heldAtIn.rs = s.rs := rfl
@[simp] theorem heldAtIn_fatal (s : State) : s.heldAtIn.fatal = s.fatal := rfl
@[simp] theorem heldAtIn_inReq (s : State) : s.heldAtIn.inReq = true := rfl
@[simp] theorem heldAtIn_outReq (s : State) : s.heldAtIn.outReq = s.outReq := rfl
@[simp] theorem heldAtIn_cfg (s : State) : s.heldAtIn.cfg = s.cfg := rfl
@[simp] theorem heldAtIn_input (s : State) : s.heldAtIn.input = s.input := rfl
@[simp] theorem heldAtIn_sink (s : State) : s.heldAtIn.sink = s.sink := rfl
@[simp] theorem heldAtIn_cmds (s : State) : s.heldAtIn.cmds = s.cmds := rfl
@[simp] theorem heldAtIn_out (s : State) : s.heldAtIn.out = s.out := rfl
@[simp] theorem heldAtIn_trace (s : State) : s.heldAtIn.trace = s.trace := rfl
@[simp] theorem heldAtIn_diag (s : State) : s.heldAtIn.diag = s.diag := rfl
@[simp] theorem heldAtIn_freeCount (s : State) : s.heldAtIn.freeCount = s.freeCount := rfl

/-! ### `answered`: The state once an IN is answered. -/

@[simp] theorem answered_mem (s : State) : s.answered.mem = s.mem := rfl
@[simp] theorem answered_stack (s : State) : s.answered.stack = s.stack := rfl
@[simp] theorem answered_ip (s : State) : s.answered.ip = s.ip := rfl
@[simp] theorem answered_rs (s : State) : s.answered.rs = s.rs := rfl
@[simp] theorem answered_fatal (s : State) : s.answered.fatal = s.fatal := rfl
@[simp] theorem answered_inReq (s : State) : s.answered.inReq = false := rfl
@[simp] theorem answered_outReq (s : State) : s.answered.outReq = s.outReq := rfl
@[simp] theorem answered_cfg (s : State) : s.answered.cfg = s.cfg := rfl
@[simp] theorem answered_input (s : State) : s.answered.input = s.input := rfl
@[simp] theorem answered_sink (s : State) : s.answered.sink = s.sink := rfl
@[simp] theorem answered_cmds (s : State) : s.answered.cmds = s.cmds := rfl
@[simp] theorem answered_out (s : State) : s.answered.out = s.out := rfl
@[simp] theorem answered_trace (s : State) : s.answered.trace = s.trace := rfl
@[simp] theorem answered_diag (s : State) : s.answered.diag = s.diag := rfl
@[simp] theorem answered_freeCount (s : State) : s.answered.freeCount = s.freeCount := rfl

/-! ### `heldAtOut`: The state of a core held at OUT. -/

@[simp] theorem heldAtOut_mem (s : State) (b : Byte) : (s.heldAtOut b).mem = s.mem := rfl
@[simp] theorem heldAtOut_stack (s : State) (b : Byte) : (s.heldAtOut b).stack = s.stack := rfl
@[simp] theorem heldAtOut_ip (s : State) (b : Byte) : (s.heldAtOut b).ip = s.ip := rfl
@[simp] theorem heldAtOut_rs (s : State) (b : Byte) : (s.heldAtOut b).rs = s.rs := rfl
@[simp] theorem heldAtOut_fatal (s : State) (b : Byte) : (s.heldAtOut b).fatal = s.fatal := rfl
@[simp] theorem heldAtOut_inReq (s : State) (b : Byte) : (s.heldAtOut b).inReq = s.inReq := rfl
@[simp] theorem heldAtOut_outReq (s : State) (b : Byte) : (s.heldAtOut b).outReq = some b := rfl
@[simp] theorem heldAtOut_cfg (s : State) (b : Byte) : (s.heldAtOut b).cfg = s.cfg := rfl
@[simp] theorem heldAtOut_input (s : State) (b : Byte) : (s.heldAtOut b).input = s.input := rfl
@[simp] theorem heldAtOut_sink (s : State) (b : Byte) : (s.heldAtOut b).sink = s.sink := rfl
@[simp] theorem heldAtOut_cmds (s : State) (b : Byte) : (s.heldAtOut b).cmds = s.cmds := rfl
@[simp] theorem heldAtOut_out (s : State) (b : Byte) : (s.heldAtOut b).out = s.out := rfl
@[simp] theorem heldAtOut_trace (s : State) (b : Byte) : (s.heldAtOut b).trace = s.trace := rfl
@[simp] theorem heldAtOut_diag (s : State) (b : Byte) : (s.heldAtOut b).diag = s.diag := rfl
@[simp] theorem heldAtOut_freeCount (s : State) (b : Byte) : (s.heldAtOut b).freeCount = s.freeCount := rfl

/-! ### `delivered`: The state once a byte is delivered. -/

@[simp] theorem delivered_mem (s : State) (b : Byte) : (s.delivered b).mem = s.mem := rfl
@[simp] theorem delivered_stack (s : State) (b : Byte) : (s.delivered b).stack = s.stack := rfl
@[simp] theorem delivered_ip (s : State) (b : Byte) : (s.delivered b).ip = s.ip := rfl
@[simp] theorem delivered_rs (s : State) (b : Byte) : (s.delivered b).rs = s.rs := rfl
@[simp] theorem delivered_fatal (s : State) (b : Byte) : (s.delivered b).fatal = s.fatal := rfl
@[simp] theorem delivered_inReq (s : State) (b : Byte) : (s.delivered b).inReq = s.inReq := rfl
@[simp] theorem delivered_outReq (s : State) (b : Byte) : (s.delivered b).outReq = none := rfl
@[simp] theorem delivered_cfg (s : State) (b : Byte) : (s.delivered b).cfg = s.cfg := rfl
@[simp] theorem delivered_input (s : State) (b : Byte) : (s.delivered b).input = s.input := rfl
@[simp] theorem delivered_sink (s : State) (b : Byte) : (s.delivered b).sink = s.sink := rfl
@[simp] theorem delivered_cmds (s : State) (b : Byte) : (s.delivered b).cmds = s.cmds := rfl
@[simp] theorem delivered_out (s : State) (b : Byte) : (s.delivered b).out = s.out ++ [b] := rfl
@[simp] theorem delivered_trace (s : State) (b : Byte) : (s.delivered b).trace = s.trace := rfl
@[simp] theorem delivered_diag (s : State) (b : Byte) : (s.delivered b).diag = s.diag := rfl
@[simp] theorem delivered_freeCount (s : State) (b : Byte) : (s.delivered b).freeCount = s.freeCount := rfl

/-! ### `afterReset`: The state after the host's `reset`. -/

@[simp] theorem afterReset_mem (s : State) : s.afterReset.mem = [] := rfl
@[simp] theorem afterReset_stack (s : State) : s.afterReset.stack = [] := rfl
@[simp] theorem afterReset_ip (s : State) : s.afterReset.ip = 0 := rfl
@[simp] theorem afterReset_rs (s : State) : s.afterReset.rs = .loading := rfl
@[simp] theorem afterReset_fatal (s : State) : s.afterReset.fatal = none := rfl
@[simp] theorem afterReset_inReq (s : State) : s.afterReset.inReq = false := rfl
@[simp] theorem afterReset_outReq (s : State) : s.afterReset.outReq = none := rfl
@[simp] theorem afterReset_cfg (s : State) : s.afterReset.cfg = s.cfg := rfl
@[simp] theorem afterReset_input (s : State) : s.afterReset.input = s.input := rfl
@[simp] theorem afterReset_sink (s : State) : s.afterReset.sink = s.sink := rfl
@[simp] theorem afterReset_cmds (s : State) : s.afterReset.cmds = s.cmds := rfl
@[simp] theorem afterReset_out (s : State) : s.afterReset.out = s.out := rfl
@[simp] theorem afterReset_trace (s : State) : s.afterReset.trace = s.trace := rfl
@[simp] theorem afterReset_diag (s : State) : s.afterReset.diag = s.diag := rfl
@[simp] theorem afterReset_freeCount (s : State) : s.afterReset.freeCount = s.freeCount := rfl

/-! ### `started`: The state after the host's `start`. -/

@[simp] theorem started_mem (s : State) : s.started.mem = s.mem := rfl
@[simp] theorem started_stack (s : State) : s.started.stack = s.stack := rfl
@[simp] theorem started_ip (s : State) : s.started.ip = 0 := rfl
@[simp] theorem started_rs (s : State) : s.started.rs = .running := rfl
@[simp] theorem started_fatal (s : State) : s.started.fatal = s.fatal := rfl
@[simp] theorem started_inReq (s : State) : s.started.inReq = s.inReq := rfl
@[simp] theorem started_outReq (s : State) : s.started.outReq = s.outReq := rfl
@[simp] theorem started_cfg (s : State) : s.started.cfg = s.cfg := rfl
@[simp] theorem started_input (s : State) : s.started.input = s.input := rfl
@[simp] theorem started_sink (s : State) : s.started.sink = s.sink := rfl
@[simp] theorem started_cmds (s : State) : s.started.cmds = s.cmds := rfl
@[simp] theorem started_out (s : State) : s.started.out = s.out := rfl
@[simp] theorem started_trace (s : State) : s.started.trace = s.trace := rfl
@[simp] theorem started_diag (s : State) : s.started.diag = s.diag := rfl
@[simp] theorem started_freeCount (s : State) : s.started.freeCount = s.freeCount := rfl

/-! ### `traced`: the state whose trace record has gone out. Only `trace` may differ (R171). -/

@[simp] theorem traced_mem (s : State) : s.traced.mem = s.mem := by
  unfold State.traced; split <;> rfl
@[simp] theorem traced_stack (s : State) : s.traced.stack = s.stack := by
  unfold State.traced; split <;> rfl
@[simp] theorem traced_ip (s : State) : s.traced.ip = s.ip := by
  unfold State.traced; split <;> rfl
@[simp] theorem traced_rs (s : State) : s.traced.rs = s.rs := by
  unfold State.traced; split <;> rfl
@[simp] theorem traced_fatal (s : State) : s.traced.fatal = s.fatal := by
  unfold State.traced; split <;> rfl
@[simp] theorem traced_inReq (s : State) : s.traced.inReq = s.inReq := by
  unfold State.traced; split <;> rfl
@[simp] theorem traced_outReq (s : State) : s.traced.outReq = s.outReq := by
  unfold State.traced; split <;> rfl
@[simp] theorem traced_cfg (s : State) : s.traced.cfg = s.cfg := by
  unfold State.traced; split <;> rfl
@[simp] theorem traced_input (s : State) : s.traced.input = s.input := by
  unfold State.traced; split <;> rfl
@[simp] theorem traced_sink (s : State) : s.traced.sink = s.sink := by
  unfold State.traced; split <;> rfl
@[simp] theorem traced_cmds (s : State) : s.traced.cmds = s.cmds := by
  unfold State.traced; split <;> rfl
@[simp] theorem traced_out (s : State) : s.traced.out = s.out := by
  unfold State.traced; split <;> rfl
@[simp] theorem traced_diag (s : State) : s.traced.diag = s.diag := by
  unfold State.traced; split <;> rfl
@[simp] theorem traced_freeCount (s : State) : s.traced.freeCount = s.freeCount := by
  unfold State.traced; split <;> rfl

/-! ### What depends on a few fields only -/

@[simp] theorem advance_strideWord (s : State) : s.advance.strideWord = s.strideWord := rfl
@[simp] theorem advance_inMemory (s : State) (a : Word) : s.advance.inMemory a = s.inMemory a := rfl
@[simp] theorem traced_strideWord (s : State) : s.traced.strideWord = s.strideWord := by
  simp [State.strideWord]
@[simp] theorem traced_inMemory (s : State) (a : Word) : s.traced.inMemory a = s.inMemory a := by
  simp [State.inMemory]
@[simp] theorem traced_admits (s : State) (a : Word) : s.traced.admits a = s.admits a := by
  simp [State.admits]
@[simp] theorem traced_cell (s : State) (a : Word) : s.traced.cell a = s.cell a := by
  simp [State.cell]
@[simp] theorem traced_hasRoom (s : State) : s.traced.hasRoom = s.hasRoom := by
  simp [State.hasRoom]
@[simp] theorem traced_opcodeAtIp (s : State) : s.traced.opcodeAtIp = s.opcodeAtIp := by
  simp [State.opcodeAtIp, State.opcodeWord, State.cell]

theorem traced_eq (s : State) : ∃ tr, s.traced = { s with trace := tr } := by
  unfold State.traced; split
  · exact ⟨_, rfl⟩
  · exact ⟨s.trace, rfl⟩

/-- With the trace off nothing is emitted (R170). -/
theorem traced_of_disabled (s : State) (h : s.cfg.traceEnabled = false) : s.traced = s := by
  simp [State.traced, h]

end Sys2Proof.Machine
end

