-- ==== Sys2Proof/Laws/Step.lean ====
section
/-! SUPPORT. What a step can do, once: the core's turn or one transaction of the host. Rules of the whole machine follow from
these by cases. -/

namespace Sys2Proof.Machine

variable {s t : State}

theorem step_of_wf (h : s.cfg.wf = true) : step s = turn s := by simp [step, h]

theorem step_of_not_wf (h : s.cfg.wf = false) : step s = .refused .configOutOfRange := by simp [step, h]

theorem turn_of_nil (h : s.cmds = []) : turn s = coreTurn s := by simp [turn, h]

theorem turn_of_idle {rest : List HostMove} (h : s.cmds = .idle :: rest) : turn s = coreTurn { s with cmds := rest } := by
  simp [turn, h]

theorem turn_of_move {m : HostMove} {rest : List HostMove} (h : s.cmds = m :: rest) (hm : m ≠ .idle) :
    turn s = hostMove m { s with cmds := rest } := by
  cases m <;> simp_all [turn]

theorem coreTurn_of_running (h : s.rs = .running) : coreTurn s = cycle s := by simp [coreTurn, h]

theorem coreTurn_of_not_running (h : s.rs ≠ .running) : coreTurn s = .next s := by
  cases hs : s.rs <;> simp_all [coreTurn]

theorem cycle_of_inMemory (h : s.inMemory s.ip = true) : cycle s = exec s.instrAtIp s.traced := by
  simp [cycle, fetch_of_inMemory h]

theorem cycle_of_not (h : s.inMemory s.ip = false) : cycle s = .next (s.raised .fetchOutOfBounds .fetch) := by
  simp [cycle, fetch_of_not h]

/-- What the core's turn can do. -/
theorem coreTurn_next (h : coreTurn s = .next t) :
    (s.rs ≠ .running ∧ t = s) ∨
    (s.rs = .running ∧ s.inMemory s.ip = false ∧ t = s.raised .fetchOutOfBounds .fetch) ∨
    (s.rs = .running ∧ s.inMemory s.ip = true ∧ exec s.instrAtIp s.traced = .next t) := by
  by_cases hr : s.rs = .running
  · rw [coreTurn_of_running hr] at h
    cases hm : s.inMemory s.ip with
    | false => rw [cycle_of_not hm] at h; exact .inr (.inl ⟨hr, rfl, next_eq h⟩)
    | true => rw [cycle_of_inMemory hm] at h; exact .inr (.inr ⟨hr, rfl, h⟩)
  · rw [coreTurn_of_not_running hr] at h
    exact .inl ⟨hr, next_eq h⟩

/-- What a transaction of the host can do. -/
theorem hostMove_next {m : HostMove} (h : hostMove m s = .next t) :
    t = s ∨
    (m = .reset ∧ t = s.afterReset) ∨
    (∃ v, m = .loadWord v ∧ s.rs = .loading ∧ s.inMemory s.ip = true ∧ t = (s.setCell s.ip v).advance) ∨
    (m = .start ∧ s.rs = .loading ∧ t = s.started) ∨
    (∃ a, m = .inResp a ∧ s.rs = .running ∧ s.inReq = true ∧ s.hasRoom = true ∧
      t = ({ s.answered with stack := a.word :: s.stack } : State).advance) ∨
    (∃ b, m = .outAck ∧ s.rs = .running ∧ s.outReq = some b ∧
      ((s.stack = [] ∧ t = s.raised .stackUnderflow (.op .out)) ∨
       ∃ a rest, s.stack = a :: rest ∧ t = (({ s with stack := rest } : State).delivered b).advance)) := by
  cases m with
  | idle => exact .inl (next_eq h)
  | reset => exact .inr (.inl ⟨rfl, next_eq h⟩)
  | loadWord v =>
    simp only [hostMove, Machine.loadWord] at h
    split at h
    · next hr =>
      split at h
      · next hm => exact .inr (.inr (.inl ⟨v, rfl, hr, hm, next_eq h⟩))
      · cases h
    · exact .inl (next_eq h)
  | start =>
    simp only [hostMove] at h
    split at h
    · next hr => exact .inr (.inr (.inr (.inl ⟨rfl, hr, next_eq h⟩)))
    · exact .inl (next_eq h)
  | inResp a =>
    simp only [hostMove] at h
    split at h
    · next hr =>
      obtain ⟨hroom, rfl⟩ := finishIn_next h
      exact .inr (.inr (.inr (.inr (.inl ⟨a, rfl, hr.1, hr.2, hroom, rfl⟩))))
    · exact .inl (next_eq h)
  | outAck =>
    simp only [hostMove] at h
    split at h
    · exact .inl (next_eq h)
    · next b hb =>
      split at h
      · next hr => exact .inr (.inr (.inr (.inr (.inr ⟨b, rfl, hr, hb, finishOut_next h⟩))))
      · exact .inl (next_eq h)

/-- What a step can do: the parameters are well formed, and it is the core's turn or a transaction of the host. -/
theorem step_next (h : step s = .next t) :
    s.cfg.wf = true ∧
    ((∃ c, (s.cmds = [] ∧ c = [] ∨ s.cmds = .idle :: c) ∧ coreTurn { s with cmds := c } = .next t) ∨
     ∃ m rest, s.cmds = m :: rest ∧ m ≠ .idle ∧ hostMove m { s with cmds := rest } = .next t) := by
  cases hw : s.cfg.wf with
  | false => rw [step_of_not_wf hw] at h; cases h
  | true =>
    rw [step_of_wf hw] at h
    refine ⟨rfl, ?_⟩
    cases hc : s.cmds with
    | nil =>
      rw [turn_of_nil hc] at h
      refine .inl ⟨[], .inl ⟨rfl, rfl⟩, ?_⟩
      rw [← hc]
      exact h
    | cons m rest =>
      by_cases hm : m = .idle
      · subst hm
        rw [turn_of_idle hc] at h
        exact .inl ⟨rest, .inr rfl, h⟩
      · rw [turn_of_move hc hm] at h
        exact .inr ⟨m, rest, rfl, hm, h⟩

end Sys2Proof.Machine
end

