-- ==== Sys2Proof/Tests/Slice0.lean ====
section
/-! SUPPORT. Tests whose expected values are the spec's own vectors (95_test_vectors.md) or worked out by hand from its rules,
and a witness for the hypotheses of each statement. -/

namespace Sys2Proof.Tests

open Sys2Proof.Machine

/-! ## Helpers -/

/-- The set-up of 95_test_vectors.md section 0: the instruction's Words at 100 and 104, Running, ip = 100. The stack is given
top first. -/
def at100 (w literal : Word) (stack : List Word) : State :=
  { State.reset with mem := Memory.write (Memory.write [] 100 w) 104 literal, ip := 100, rs := .running, stack := stack }

/-- What a step shows: the stack (top first), `ip` and the run state. -/
def shown (r : Result) : Option (List Word × Word × RunState) := (nextOf r).map fun t => (t.stack, t.ip, t.rs)

/-- The fatal record a step leaves. -/
def record (r : Result) : Option FatalRecord := (nextOf r).bind fun t => t.fatal

/-- A machine of N cells with a bounds mode, a stack capacity and the default map, tracing. -/
def small (n stride : Nat) (b : BoundsMode) (cap : Option Nat) : Config :=
  { Config.reference with memSize := n, stride := stride, boundsMode := b, stackCapacity := cap, traceEnabled := true }

/-- A running machine at `ip` with one Word there. -/
def running (c : Config) (ip : Word) (w : Word) (stack : List Word) : State :=
  { State.reset with cfg := c, mem := Memory.write [] ip.toNat w, ip := ip, rs := .running, stack := stack }

/-- An IN at 100 that has been polled once and not answered. -/
def heldAtIn (cmds : List HostMove) : State :=
  { at100 7 0 [] with input := { queue := [], rest := .loop none [] }, inReq := true, cmds := cmds }

/-- An OUT at 100 that presents the low byte of 0x148 over `below`, with an OUT after it, and a host that does not accept by
itself. -/
def heldAtOut (below : Word) (cmds : List HostMove) : State :=
  { at100 8 8 [0x148, below] with sink := { queue := [], rest := .loop false [] }, outReq := some 0x48, cmds := cmds }

/-! ## Well-formedness: each check refuses an ill-formed term -/

theorem test_reference_is_wf : Config.reference.wf = true := by decide
theorem test_no_memory_refused : ({ Config.reference with memSize := 0 } : Config).wf = false := by decide
theorem test_no_stride_refused : ({ Config.reference with stride := 0 } : Config).wf = false := by decide
theorem test_headroom_refused : ({ Config.reference with memSize := 2147483640 } : Config).wf = false := by decide
theorem test_headroom_limit_accepted : ({ Config.reference with memSize := 2147483639 } : Config).wf = true := by decide
theorem test_nop_not_zero_refused : ({ OpcodeMap.default with nop := 99 } : OpcodeMap).wf = false := by decide
theorem test_map_not_injective_refused : ({ OpcodeMap.default with dup := 3 } : OpcodeMap).wf = false := by decide
theorem test_no_capacity_refused : ({ Config.reference with stackCapacity := some 0 } : Config).wf = false := by decide
theorem test_image_of_F6b_does_not_fit : (small 12 4 .strict none).imageFits [1, 2, 3, 4] = false := by decide
theorem test_ill_formed_machine_refused :
    step { State.reset with cfg := { Config.reference with stride := 0 } } = .refused .configOutOfRange := by rfl

/-! ## Decoding: a Word of the table of R72 for every constructor -/

theorem test_decode_nop : decodeTableWord 32 0x00000000 = some .nop := by decide
theorem test_decode_add : decodeTableWord 32 0x00000001 = some .add := by decide
theorem test_decode_sub : decodeTableWord 32 0x00000002 = some .sub := by decide
theorem test_decode_and : decodeTableWord 32 0x00000003 = some .and := by decide
theorem test_decode_or : decodeTableWord 32 0x00000004 = some .or := by decide
theorem test_decode_xor : decodeTableWord 32 0x00000005 = some .xor := by decide
theorem test_decode_not : decodeTableWord 32 0x00000006 = some .not := by decide
theorem test_decode_in : decodeTableWord 32 0x00000007 = some .inp := by decide
theorem test_decode_out : decodeTableWord 32 0x00000008 = some .out := by decide
theorem test_decode_load : decodeTableWord 32 0x00000009 = some .load := by decide
theorem test_decode_stor : decodeTableWord 32 0x0000000A = some .stor := by decide
theorem test_decode_jmp : decodeTableWord 32 0x0000000B = some .jmp := by decide
theorem test_decode_jz : decodeTableWord 32 0x0000000C = some .jz := by decide
theorem test_decode_push : decodeTableWord 64 0x800000000000000D = some (.push 0x80000000) := by decide
theorem test_decode_push_zero_literal : decodeTableWord 32 0x0000000D = some (.push 0) := by decide
theorem test_decode_dup : decodeTableWord 32 0x0000000E = some .dup := by decide
theorem test_decode_unrecognized : decodeTableWord 32 0xFFFFFFFF = some .nop := by decide
theorem test_decode_no_slot : decode OpcodeMap.default [] = .error .noOpcodeSlot := by rfl
theorem test_decode_push_without_literal : decode OpcodeMap.default [0x0D] = .error .noLiteralSlot := by rfl
/-- The listing of R81: PUSH 'A'; OUT; HALT, at STRIDE 4. -/
theorem test_image_of_the_listing :
    encodeProgram OpcodeMap.default ([.push 0x41, .out] ++ haltIdiom 4 12) = [0x0D, 0x41, 0x08, 0x0D, 0x14, 0x0B] := by decide

/-! ## The vectors of 95_test_vectors.md section 2, at most two for an instruction -/

theorem test_ALU_22_nop : shown (step (at100 0 0 [5])) = some ([5], 104, .running) := by decide
theorem test_ALU_24_unrecognized : shown (step (at100 0xFFFFFFFF 0 [5])) = some ([5], 104, .running) := by decide
theorem test_ALU_2_add : shown (step (at100 1 0 [1, 0x7FFFFFFF])) = some ([0x80000000], 104, .running) := by decide
theorem test_ALU_5_add : record (step (at100 1 0 [1])) = some ⟨.stackUnderflow, .op .add, 100⟩ := by decide
theorem test_ALU_6_sub : shown (step (at100 2 0 [5, 7])) = some ([-2], 104, .running) := by decide
theorem test_ALU_7_sub : shown (step (at100 2 0 [0x80000000, 1])) = some ([0x7FFFFFFF], 104, .running) := by decide
theorem test_ALU_11_and : shown (step (at100 3 0 [0x0A, 0x0C])) = some ([0x08], 104, .running) := by decide
theorem test_ALU_16_or : shown (step (at100 4 0 [1, 0x80000000])) = some ([0x80000001], 104, .running) := by decide
theorem test_ALU_15_xor : shown (step (at100 5 0 [0x12345678, 0xFFFFFFFF])) = some ([0xEDCBA987], 104, .running) := by decide
theorem test_ALU_18_not : shown (step (at100 6 0 [0])) = some ([1], 104, .running) := by decide
theorem test_ALU_19_not : shown (step (at100 6 0 [-7])) = some ([0], 104, .running) := by decide
theorem test_IO_3_in :
    shown (step { at100 7 0 [] with input := { queue := [some (.byte 0xFF)], rest := .loop (some .eos) [] } })
      = some ([255], 104, .running) := by decide
theorem test_IO_4_in : shown (step (at100 7 0 [])) = some ([0xFFFFFFFF], 104, .running) := by decide
theorem test_IO_5_out : (nextOf (step (at100 8 0 [0x148]))).map (fun t => (t.out, t.stack)) = some ([0x48], []) := by decide
theorem test_IO_8_out :
    (nextOf (step (at100 8 0 []))).map (fun t => (t.out, t.fatal)) =
      some ([], some ⟨.stackUnderflow, .op .out, 100⟩) := by decide
theorem test_MEM_3_load : shown (step (at100 9 0 [100])) = some ([9], 104, .running) := by decide
theorem test_MEM_5_load : record (step (at100 9 0 [1024000])) = some ⟨.boundsViolation, .op .load, 100⟩ := by decide
theorem test_MEM_12_stor :
    (nextOf (step (at100 0x0A 0 [1023999, 5]))).map (fun t => (t.mem, t.stack)) =
      some ([(100, 0x0A), (1023999, 5)], []) := by decide
theorem test_MEM_14_stor : record (step (at100 0x0A 0 [-1])) = some ⟨.stackUnderflow, .op .stor, 100⟩ := by decide
theorem test_CTL_2_jmp : shown (step (at100 0x0B 0 [100, 8, 7])) = some ([8, 7], 100, .halted) := by decide
theorem test_CTL_5_jmp : shown (step (at100 0x0B 0 [200])) = some ([], 200, .running) := by decide
theorem test_CTL_6_jz : shown (step (at100 0x0C 0 [0])) = some ([], 0, .running) := by decide
theorem test_CTL_8_jz : shown (step (at100 0x0C 0 [-3])) = some ([], 104, .running) := by decide
theorem test_STK_2_push : shown (step (at100 0x0D 0x80000000 [])) = some ([0x80000000], 108, .running) := by decide
/-- F6: the literal of a PUSH in the last slot lies outside Memory. -/
theorem test_F6_push :
    record (step (running (small 12 4 .strict none) 8 0x0D [])) = some ⟨.fetchOutOfBounds, .op .push, 8⟩ := by decide
theorem test_STK_5_dup : shown (step (at100 0x0E 0 [2, 1])) = some ([2, 2, 1], 104, .running) := by decide

/-! ## The configurations, the host and the trace -/

/-- LE-1 and LE-3: under REFERENCE_LE a LOAD at N is refused and a JMP to N is taken. -/
theorem test_LE_1_load : step (running (small 40 4 .referenceLe none) 8 9 [40]) = .refused .undefinedAccessAtN := by rfl
theorem test_LE_3_jmp :
    shown (step (running (small 40 4 .referenceLe none) 8 0x0B [40])) = some ([], 40, .running) := by decide
/-- RST-2 and RST-3. -/
theorem test_RST_2_load_word :
    (nextOf (step { State.reset with cmds := [.loadWord 0x48], ip := 4, mem := [(0, 0x0D)] })).map (fun t => (t.mem, t.ip)) =
      some ([(0, 0x0D), (4, 0x48)], 8) := by decide
theorem test_RST_3_start :
    (nextOf (step { State.reset with cmds := [.start], ip := 8 })).map (fun t => (t.ip, t.rs)) = some (0, .running) := by decide
/-- TR-1, the record of the JMP at 20 with 20 on top. -/
theorem test_TR_1_jmp :
    (nextOf (step (running (small 40 4 .strict none) 20 0x0B [20]))).map (fun t => t.trace) =
      some [⟨20, .jmp, 1, some 20, none, none⟩] := by decide
/-- IO-9: no answer, no effect, and the second poll emits no second record. -/
theorem test_IO_9_in_held :
    (nextOf (runSteps 2 { running (small 40 4 .strict none) 8 7 [] with input := { queue := [], rest := .loop none [] } })).map
      (fun t => (t.stack, t.ip, t.inReq, t.trace.length)) = some ([], 8, true, 1) := by decide
/-- IO-9 and R46: the first `in_resp` completes the held IN; the second meets no request. -/
theorem test_second_in_resp_ignored :
    (nextOf (runSteps 2 (heldAtIn [.inResp (.byte 0x80), .inResp (.byte 0x41)]))).map (fun t => (t.stack, t.ip, t.inReq)) =
      some ([128], 104, false) := by decide
/-- R111 and R46: the first `out_ack` delivers the byte presented; the second meets none, and the next OUT is held. -/
theorem test_second_out_ack_ignored :
    (nextOf (runSteps 3 (heldAtOut 7 [.outAck, .outAck]))).map (fun t => (t.out, t.stack, t.outReq)) =
      some ([0x48], [7], some 7) := by decide
/-- R115: a host that answers A, B, A, B, … -/
theorem test_alternating_input :
    (nextOf (runSteps 3 { at100 7 7 [] with
      mem := [(100, 7), (104, 7), (108, 7)], input := { queue := [], rest := .loop (some (.byte 65)) [some (.byte 66)] } })).map
        (fun t => t.stack) = some [65, 66, 65] := by decide
/-- The first instruction after reset. -/
theorem test_withFetchWord_push :
    shown (step (State.reset.withFetchWord 64 0x070000000D)) = some ([7], 8, .running) := by decide

/-! ## Witnesses: for each statement with hypotheses, states and operands that meet them, clause by clause -/

theorem witness_ResetIsAcceptedInEveryRunState :
    let s : State := { at100 0 0 [3] with rs := .fatal, cmds := [.reset, .start] }
    s.cfg.wf = true ∧ s.cmds = .reset :: [.start] := by decide

theorem witness_LoadWordWritesTheCursorCell :
    let s : State := { State.reset with ip := 1023999, cmds := [.loadWord 7] }
    let e : State := { State.reset with ip := 1024000, cmds := [.loadWord 7] }
    (s.cfg.wf = true ∧ s.rs = .loading ∧ s.cmds = [.loadWord 7] ∧ 0 ≤ s.ip.toInt ∧ s.ip.toInt < s.cfg.memSize ∧
      s.mem.wf = true) ∧
    (e.cfg.wf = true ∧ e.rs = .loading ∧ e.cmds = [.loadWord 7] ∧ (e.cfg.memSize : Int) ≤ e.ip.toInt) := by decide

theorem witness_StartSetsIpToZeroAndRuns :
    let s : State := { State.reset with ip := 8, cmds := [.start] }
    s.cfg.wf = true ∧ s.rs = .loading ∧ s.cmds = [.start] := by decide

theorem witness_MisplacedTransactionsAreIgnored :
    let a : State := { at100 0 0 [] with rs := .halted, cmds := [.loadWord 7] }
    let b : State := { at100 7 0 [] with cmds := [.inResp .eos] }
    let c : State := { at100 8 0 [1] with cmds := [.outAck] }
    (a.cfg.wf = true ∧ a.rs ≠ .loading) ∧
    (b.cfg.wf = true ∧ ¬ (b.rs = .running ∧ b.inReq = true)) ∧
    (c.cfg.wf = true ∧ ¬ (c.rs = .running ∧ c.outReq ≠ none)) := by decide

theorem witness_HostCannotTouchARunningCore :
    let s : State := { heldAtIn [.outAck] with outReq := none }
    s.cfg.wf = true ∧ s.rs = .running ∧ s.cmds = [.outAck] ∧ HostMove.outAck ≠ .idle ∧ HostMove.outAck ≠ .reset ∧
      ¬ (s.inReq = true ∧ ∃ a, HostMove.outAck = .inResp a) ∧ ¬ (s.outReq ≠ none ∧ HostMove.outAck = .outAck) := by
  simp only [reduceCtorEq, exists_false, and_false, not_false_eq_true, and_true]
  decide

theorem witness_AcceptedAnswersCompleteTheHeldCycle :
    (let s := heldAtIn [.inResp .eos, .inResp (.byte 65)]
     s.cfg.wf = true ∧ s.rs = .running ∧ s.inReq = true ∧ s.hasRoom = true ∧
       s.cmds = .inResp .eos :: .inResp (.byte 65) :: []) ∧
    (let s : State := { heldAtIn [.inResp (.byte 0xFF)] with cfg := small 400 4 .strict (some 1), stack := [9] }
     s.cfg.wf = true ∧ s.rs = .running ∧ s.inReq = true ∧ s.hasRoom = false ∧ s.cmds = .inResp (.byte 0xFF) :: []) ∧
    (let s := heldAtOut 7 [.outAck, .outAck]
     s.cfg.wf = true ∧ s.rs = .running ∧ s.outReq = some 0x48 ∧ s.stack = 0x148 :: [7] ∧ s.outReq ≠ none ∧
       s.cmds = .outAck :: .outAck :: [] ∧ s.stack ≠ []) := by decide

theorem witness_AnswersByPortAndByPollAgree :
    (let s : State := { heldAtIn [] with input := { queue := [some .eos], rest := .free 3 } }
     s.Inv ∧ s.rs = .running ∧ s.inReq = true ∧ s.input.queue = some .eos :: [] ∧ s.cmds = []) ∧
    (let s : State := { heldAtOut 7 [] with sink := { queue := [true], rest := .free 3 } }
     s.Inv ∧ s.rs = .running ∧ s.outReq ≠ none ∧ s.sink.queue = true :: [] ∧ s.cmds = []) := by
  refine ⟨⟨?_, by decide⟩, ⟨?_, by decide⟩⟩ <;> constructor <;> first | decide | simp [heldAtIn, heldAtOut, at100, State.reset]
  exact ⟨by decide, by decide, by decide⟩

theorem witness_BootPlacesTheImageAndStarts :
    let s : State := { running (small 12 4 .strict none) 8 1 [4] with cmds := bootMoves [13, 0, 11] ++ [.idle] }
    s.cfg.wf = true ∧ s.cfg.imageFits [13, 0, 11] = true ∧ s.cmds = bootMoves [13, 0, 11] ++ [.idle] := by decide

theorem witness_OverlongImageIsRefused :
    let s : State := { running (small 12 4 .strict none) 8 1 [4] with cmds := bootMoves [1, 2, 3, 4] ++ [] }
    s.cfg.wf = true ∧ s.cfg.imageFits [1, 2, 3, 4] = false ∧ s.cmds = bootMoves [1, 2, 3, 4] ++ [] := by decide

/-- A well-formed map that is not the default one. -/
theorem witness_DecodeOfEncodeIsTheInstruction :
    ({ OpcodeMap.default with push := 0xFFFFFFFF, dup := 13 } : OpcodeMap).wf = true := by decide

theorem witness_EncodeOfDecodeIsTheSlots :
    OpcodeMap.default.wf = true ∧ isOpcodeWord OpcodeMap.default 0x0D = true ∧
      decode OpcodeMap.default [0x0D, 0x0B, 1] = .ok (.push 0x0B, [1]) :=
  ⟨by decide, by decide, rfl⟩

theorem witness_OpcodeWordsAreComparedWhole :
    OpcodeMap.default.wf = true ∧ Opcode.dup ≠ .nop ∧ decodeOpcode OpcodeMap.default 0x0E = .dup := by decide

theorem witness_UnrecognizedWordsBehaveAsNop :
    (∀ o, OpcodeMap.default.value o ≠ 0x0F) ∧
    (let s : State := { at100 0 0 [5] with mem := [(1023999, 0xFFFFFFFF)], ip := 1023999 }
     (s.cfg.wf = true ∧ s.rs = .running ∧ s.cmds = [] ∧ 0 ≤ s.ip.toInt ∧ s.ip.toInt < s.cfg.memSize) ∧ ∀ o, s.cfg.opcodeMap.value o ≠ s.mem.read s.ip.toNat) := by
  refine ⟨fun o => ?_, by decide, fun o => ?_⟩ <;> cases o <;> decide

theorem witness_StepRunsTheDecodedInstruction :
    let s := at100 0x0D 7 []
    (s.cfg.wf = true ∧ s.rs = .running ∧ 0 ≤ s.ip.toInt ∧ s.ip.toInt < s.cfg.memSize ∧ s.cmds = []) ∧
    ({ s with cmds := [.idle] } : State).cmds = .idle :: [] ∧
    decode s.cfg.opcodeMap [s.mem.read s.ip.toNat, s.mem.read (s.ip + BitVec.ofNat 32 s.cfg.stride).toNat] =
      .ok (.push 7, []) :=
  ⟨by decide, rfl, rfl⟩

theorem witness_TraceRecordHasTheFieldsOfTheCycle :
    let s := running (small 40 4 .strict none) 8 0x0F [1, 2]
    let r := running (small 40 4 .strict none) 8 0x0E [1, 2]
    (at100 0 0 []).cfg.traceEnabled = false ∧
    (let h : State := { at100 7 0 [] with inReq := true }
     h.opcodeAtIp = .inp ∧ h.inReq = true) ∧
    (s.cfg.traceEnabled = true ∧ s.inReq = false ∧ s.outReq = none ∧
      ∀ o, s.cfg.opcodeMap.value o ≠ s.mem.read s.ip.toNat) ∧
    (r.cfg.traceEnabled = true ∧ r.inReq = false ∧ r.outReq = none ∧
      ∃ o, r.cfg.opcodeMap.value o = r.mem.read r.ip.toNat) :=
  ⟨rfl, by decide, ⟨rfl, rfl, rfl, fun o => by cases o <;> decide⟩, ⟨rfl, rfl, rfl, .dup, by decide⟩⟩

/-- A well-formed map, and a Word that is none of its values. -/
theorem witness_OpcodeNamesAreTheMnemonics :
    OpcodeMap.default.wf = true ∧ ∀ o, OpcodeMap.default.value o ≠ 0x0F := ⟨by decide, fun o => by cases o <;> decide⟩

theorem witness_FetchOutsideMemoryIsFatal :
    let s : State := { at100 0 0 [] with ip := 1024000 }
    let n : State := { at100 0 0 [] with ip := -1 }
    (s.cfg.wf = true ∧ s.rs = .running ∧ s.cmds = [] ∧ (s.cfg.memSize : Int) ≤ s.ip.toInt) ∧
    (n.cfg.wf = true ∧ n.rs = .running ∧ n.cmds = [] ∧ n.ip.toInt < 0) ∧
    ({ n with cmds := [.idle, .reset] } : State).cmds = .idle :: [.reset] := by decide

/-- The last PUSH whose literal is in Memory. -/
theorem witness_PushTakesTheWholeNextSlot :
    let s := running (small 40 4 .strict (some 2)) 35 0x0D [1]
    s.cfg.wf = true ∧ s.rs = .running ∧ s.cmds = [] ∧ 0 ≤ s.ip.toInt ∧ s.ip.toInt + s.cfg.stride < s.cfg.memSize ∧
      s.hasRoom = true ∧ s.mem.read s.ip.toNat = s.cfg.opcodeMap.push := by decide

theorem witness_NopOnlyAdvances :
    OpcodeMap.default.wf = true ∧ ∀ o, OpcodeMap.default.value o ≠ 0x80000000 :=
  ⟨by decide, fun o => by cases o <;> decide⟩

/-- A full stack, and a stack with one entry. -/
theorem witness_AddAndSubWrapModuloTwoToThe32 :
    (let s := running (small 40 4 .strict (some 2)) 8 1 [1, 0x7FFFFFFF]
     s.stack = 1 :: 0x7FFFFFFF :: [] ∧ s.depthOk = true) ∧ (at100 1 0 [1]).stack.length < 2 := by decide

theorem witness_AndOrXorAreBitwise :
    (let s := running (small 40 4 .strict (some 2)) 8 3 [0x0A, 0x0C]
     s.stack = 0x0A :: 0x0C :: [] ∧ s.depthOk = true) ∧ (at100 3 0 []).stack.length < 2 := by decide

theorem witness_NotIsLogical :
    ((at100 6 0 [0]).stack = 0 :: [] ∧ (at100 6 0 [0]).depthOk = true) ∧
    ((at100 6 0 [0x80000000]).stack = 0x80000000 :: [] ∧ (0x80000000 : Word) ≠ 0 ∧ (at100 6 0 [0x80000000]).depthOk = true) ∧
    (at100 6 0 []).stack = [] := by decide

theorem witness_InPushesTheByteOrMinusOne :
    (let s : State := { at100 7 0 [] with input := { queue := [some (.byte 0xFF)], rest := .loop none [] } }
     s.input.take.1 = some (.byte 0xFF) ∧ s.hasRoom = true) ∧
    ((at100 7 0 []).input.take.1 = some .eos ∧ (at100 7 0 []).hasRoom = true) ∧
    (let s := running (small 40 4 .strict (some 1)) 8 7 [9]
     s.input.take.1 ≠ none ∧ s.hasRoom = false) ∧
    (heldAtIn []).input.take.1 = none := by decide

/-- The second byte of a two-byte input, the end after it, and the second poll of a block of two. -/
theorem witness_FeedsAnswerInOrder :
    ([65, 66] : List Byte)[1]? = some 66 ∧ ([65, 66] : List Byte)[2]? = none ∧ 1 < ([false, true] : List Bool).length ∧
      1 % ([some InAnswer.eos].length + 1) = 1 := by decide

theorem witness_OutSendsTheLowByte :
    ((at100 8 0 [-1]).stack = -1 :: [] ∧ (at100 8 0 [-1]).sink.take.1 = true) ∧
    (let s : State := { at100 8 0 [-1] with sink := { queue := [false], rest := .loop true [] } }
     s.stack = -1 :: [] ∧ s.sink.take.1 = false) ∧
    (at100 8 0 []).stack = [] := by decide

theorem witness_HeldPortsChangeNoStateForEver :
    (let s : State := { at100 7 0 [] with input := { queue := [], rest := .loop none [] } }
     s.input.take.1 = none ∧ s.cfg.wf = true ∧ s.rs = .running ∧ s.cmds = [] ∧ 0 ≤ s.ip.toInt ∧
       s.ip.toInt < s.cfg.memSize ∧ s.mem.read s.ip.toNat = s.cfg.opcodeMap.inp ∧ s.input = { queue := [], rest := .loop none [] }) ∧
    (let s : State := { at100 8 0 [1] with sink := { queue := [], rest := .loop false [] } }
     s.stack = 1 :: [] ∧ s.sink.take.1 = false ∧ s.cfg.wf = true ∧ s.rs = .running ∧ s.cmds = [] ∧ 0 ≤ s.ip.toInt ∧
       s.ip.toInt < s.cfg.memSize ∧ s.mem.read s.ip.toNat = s.cfg.opcodeMap.out ∧ s.stack ≠ [] ∧
       s.sink = { queue := [], rest := .loop false [] }) := by decide

/-- The two modes part at N. -/
theorem witness_BoundsCheckAdmitsTheRange :
    (let s := running (small 40 4 .strict none) 8 9 []
     s.cfg.boundsMode = .strict ∧ s.admits 39 = true ∧ s.admits 40 = false ∧ s.admits (-1) = false) ∧
    (let s := running (small 40 4 .referenceLe none) 8 9 []
     s.cfg.boundsMode = .referenceLe ∧ s.admits 40 = true ∧ s.inMemory 40 = false ∧ s.admits 41 = false) := by decide

theorem witness_LoadReadsOneCell :
    (let s := running (small 40 4 .referenceLe (some 1)) 8 9 [39]
     s.stack = 39 :: [] ∧ s.inMemory 39 = true ∧ s.depthOk = true) ∧
    (let s := running (small 40 4 .referenceLe (some 1)) 8 9 [41]
     s.stack = 41 :: [] ∧ s.admits 41 = false) ∧
    (let s := running (small 40 4 .referenceLe (some 1)) 8 9 [40]
     s.stack = 40 :: [] ∧ s.admits 40 = true ∧ s.inMemory 40 = false) ∧
    (at100 9 0 []).stack = [] := by decide

theorem witness_StorWritesOneCell :
    (let s := running (small 40 4 .referenceLe none) 8 10 [39, 5]
     s.stack = 39 :: 5 :: [] ∧ s.inMemory 39 = true ∧ s.mem.wf = true) ∧
    (let s := running (small 40 4 .referenceLe none) 8 10 [41, 5]
     s.stack = 41 :: 5 :: [] ∧ s.admits 41 = false) ∧
    (let s := running (small 40 4 .referenceLe none) 8 10 [40, 5]
     s.stack = 40 :: 5 :: [] ∧ s.admits 40 = true ∧ s.inMemory 40 = false) ∧
    (at100 10 0 [-1]).stack.length < 2 := by decide

theorem witness_JmpTransfersOrHalts :
    (let s := running (small 40 4 .referenceLe none) 8 11 [40]
     s.stack = 40 :: [] ∧ s.admits 40 = true ∧ (40 : Word) ≠ s.ip) ∧
    (let s := running (small 40 4 .strict none) 39 11 [39, 6]
     s.stack = s.ip :: [6] ∧ s.admits s.ip = true) ∧
    ((at100 11 0 [-1]).stack = -1 :: [] ∧ (at100 11 0 [-1]).admits (-1) = false) ∧
    (at100 11 0 []).stack = [] := by decide

theorem witness_JzJumpsToZeroOnly :
    ((at100 12 0 [-3]).stack = -3 :: [] ∧ (-3 : Word) ≠ 0) ∧
    ((at100 12 0 [0]).stack = 0 :: [] ∧ (at100 12 0 [0]).cfg.wf = true) ∧
    (at100 12 0 []).stack = [] ∧
    ((at100 12 0 [0]).cfg.wf = true ∧ (at100 12 0 [0]).rs = .running) ∧
    (∃ t, exec .jz { at100 12 0 [0] with rs := .halted } = .next t ∧ t.rs = .halted) :=
  ⟨by decide, by decide, by decide, by decide, _, rfl, rfl⟩

theorem witness_PushPushesTheLiteral :
    (let s := running (small 40 4 .strict (some 1)) 35 13 []
     s.inMemory (s.ip + BitVec.ofNat 32 s.cfg.stride) = true ∧ s.hasRoom = true) ∧
    (let s := running (small 40 4 .strict (some 1)) 35 13 [1]
     s.inMemory (s.ip + BitVec.ofNat 32 s.cfg.stride) = true ∧ s.hasRoom = false) ∧
    (let s := running (small 40 4 .strict (some 1)) 36 13 [1]
     s.inMemory (s.ip + BitVec.ofNat 32 s.cfg.stride) = false) := by decide

theorem witness_DupDoublesTheTop :
    (let s := running (small 40 4 .strict (some 2)) 8 14 [7]
     s.stack = 7 :: [] ∧ s.hasRoom = true) ∧
    (let s := running (small 40 4 .strict (some 2)) 8 14 [7, 7]
     s.stack = 7 :: [7] ∧ s.hasRoom = false) ∧
    (at100 14 0 []).stack = [] := by decide

/-- A plain instruction runs, for the statements about every instruction that answers a next state. -/
theorem witness_OnlyStorChangesMemory : Instr.add ≠ .stor ∧ ∃ t, exec .add (at100 1 0 [2, 3]) = .next t :=
  ⟨by decide, _, rfl⟩

theorem witness_StorChangesOnlyTheAddressedCell :
    (at100 10 0 [1000, 99]).rs = .running ∧ (at100 10 0 [1000, 99]).mem.wf = true ∧
    (∃ t, exec .stor (at100 10 0 [1000, 99]) = .next t) ∧ (at100 10 0 [1000, 99]).stack = 1000 :: 99 :: [] ∧
    (∃ t, exec .stor (at100 10 0 [1000]) = .next t ∧ t.rs = .fatal) ∧ (at100 10 0 [1000]).stack.length < 2 :=
  ⟨rfl, by decide, ⟨_, rfl⟩, rfl, ⟨_, rfl, rfl⟩, by decide⟩

theorem witness_InstructionsTouchOnlyTheirOwnState :
    (at100 1 0 [2, 3]).rs = .running ∧ Instr.add ≠ .inp ∧ Instr.add ≠ .out ∧ Instr.add ≠ .jmp ∧
      ∃ t, exec .add (at100 1 0 [2, 3]) = .next t ∧ t.rs ≠ .fatal :=
  ⟨rfl, by decide, by decide, by decide, _, rfl, by decide⟩

theorem witness_EntriesBelowTheOperandsStay :
    (at100 1 0 [2, 3, 4]).rs = .running ∧ ∃ t, exec .add (at100 1 0 [2, 3, 4]) = .next t ∧ t.rs ≠ .fatal :=
  ⟨rfl, _, rfl, by decide⟩

theorem witness_IpMovesAsEachInstructionSays :
    (at100 11 0 [100]).rs = .running ∧ (∃ t, exec .jmp (at100 11 0 [100]) = .next t ∧ t.rs ≠ .running) ∧
    (∃ t, exec (.push 7) (at100 13 7 []) = .next t ∧ t.rs = .running) ∧
    (∃ t, exec .jz (at100 12 0 [0]) = .next t ∧ t.rs = .running) ∧
    (∃ t, exec .out (at100 8 0 [5]) = .next t ∧ t.rs = .running ∧ ¬ t.outReq ≠ none) ∧
    (∃ t, exec .inp (at100 7 0 []) = .next t ∧ t.rs = .running ∧ ¬ t.inReq = true) :=
  ⟨rfl, ⟨_, rfl, by decide⟩, ⟨_, rfl, rfl⟩, ⟨_, rfl, rfl⟩, ⟨_, rfl, rfl, by decide⟩, ⟨_, rfl, rfl, by decide⟩⟩

theorem witness_AdvanceNeverWraps :
    let s := running { small 2147483639 4 .strict none with traceEnabled := false } 2147483638 1 [2, 3]
    s.cfg.wf = true ∧ s.rs = .running ∧ s.inMemory s.ip = true ∧ Instr.add ≠ .jmp ∧ Instr.add ≠ .jz ∧
      (∃ t, exec .add s = .next t ∧ t.ip ≠ s.ip) ∧
      ¬ (Instr.jz = .jz ∧ s.stack.head? = some 0) ∧ ∃ t, exec .jz s = .next t ∧ t.ip ≠ s.ip :=
  ⟨by decide, rfl, by decide, by decide, by decide, ⟨_, rfl, by decide⟩, by decide, _, rfl, by decide⟩

theorem witness_RaisingLeavesAPreciseState :
    (at100 10 0 [-1, 5]).cfg.wf = true ∧ (at100 10 0 [-1, 5]).rs = .running ∧
      ∃ t, exec .stor (at100 10 0 [-1, 5]) = .next t ∧ t.rs = .fatal :=
  ⟨by decide, rfl, _, rfl, rfl⟩

theorem witness_OnlyASelfJumpHalts :
    (at100 11 0 [100]).rs = .running ∧ ∃ t, exec .jmp (at100 11 0 [100]) = .next t ∧ t.rs = .halted :=
  ⟨rfl, _, rfl, rfl⟩

theorem witness_OnlyASelfJumpHalts_step :
    (at100 11 0 [100]).rs = .running ∧ ∃ t, step (at100 11 0 [100]) = .next t ∧ t.rs = .halted := ⟨rfl, _, rfl, rfl⟩

theorem witness_ExitStatusFollowsTheRunState :
    ({ State.reset with rs := .halted } : State).rs = .halted ∧ ({ State.reset with rs := .fatal } : State).rs = .fatal ∧
      State.reset.rs = .loading ∧ (at100 0 0 []).rs = .running := by decide

theorem witness_StatusShowsTheFatalRecord :
    let r : FatalRecord := ⟨.fetchOutOfBounds, .fetch, 0⟩
    let s : State := { State.reset with rs := .fatal, fatal := some r }
    (State.reset.Inv ∧ State.reset.rs ≠ .fatal) ∧ s.Inv ∧ s.rs = .fatal := by
  refine ⟨⟨?_, by decide⟩, ?_, rfl⟩ <;> constructor <;> first | decide | simp [State.reset]

theorem witness_HaltedAndFatalAreAbsorbing :
    let s : State := { at100 11 0 [] with rs := .halted, cmds := [.start, .idle, .loadWord 3, .reset] }
    let f : State := { at100 11 0 [] with rs := .fatal }
    (s.cfg.wf = true ∧ s.rs = .halted ∧ .reset ∉ s.cmds.take 3 ∧ .reset ∈ s.cmds) ∧
      (f.cfg.wf = true ∧ f.rs = .fatal ∧ .reset ∉ f.cmds.take 7) := by decide

theorem witness_RunStateTransitions : ∃ t, step (at100 11 0 [100]) = .next t := ⟨_, rfl⟩

theorem witness_InstructionsAreRefusedOnlyAsListed :
    (let s := running (small 40 4 .referenceLe none) 8 9 [40]
     s.depthOk = true ∧ exec .load s = .refused .undefinedAccessAtN) ∧
    (let s := running (small 40 4 .referenceLe (some 1)) 8 14 [7]
     s.depthOk = true ∧ exec .dup s = .refused .resourceExhausted) :=
  ⟨⟨by decide, rfl⟩, ⟨by decide, rfl⟩⟩

theorem witness_DefaultMachineNeverStops :
    let s : State := { State.reset with cmds := [.loadWord 13] }
    s.cfg.wf = true ∧ s.cfg.boundsMode = .strict ∧ s.cfg.stackCapacity = none ∧
      (s.rs = .loading → (∃ v rest, s.cmds = .loadWord v :: rest) → s.inMemory s.ip = true) :=
  ⟨by decide, rfl, rfl, fun _ _ => by decide⟩

/-- A state in the middle of a run that meets the invariant and has a next state. -/
theorem witness_EveryStepKeepsTheInvariant :
    (at100 1 0 [2, 3]).Inv ∧ ∃ t, step (at100 1 0 [2, 3]) = .next t := by
  refine ⟨?_, _, rfl⟩
  constructor <;> first | decide | simp [at100, State.reset]

theorem witness_ParametersNeverChange : ∃ t, step State.reset = .next t := ⟨_, rfl⟩

theorem witness_MemoryChangesOnlyByStorLoadAndReset :
    (at100 10 0 [1000, 99]).mem.wf = true ∧
      ∃ t, step (at100 10 0 [1000, 99]) = .next t ∧ t.mem.read 1000 ≠ (at100 10 0 [1000, 99]).mem.read 1000 :=
  ⟨by decide, _, rfl, by decide⟩

theorem witness_OutputGrowsByOneByteOfAnOut :
    ((at100 8 0 [0x148]).Inv ∧ ∃ t, step (at100 8 0 [0x148]) = .next t ∧ t.out ≠ (at100 8 0 [0x148]).out) ∧
    ((heldAtOut 7 [.outAck]).Inv ∧ ∃ t, step (heldAtOut 7 [.outAck]) = .next t ∧ t.out ≠ (heldAtOut 7 [.outAck]).out) := by
  refine ⟨⟨?_, _, rfl, by decide⟩, ?_, _, rfl, by decide⟩ <;> constructor <;>
    first | decide | simp [heldAtOut, at100, State.reset]
  exact ⟨by decide, by decide, by decide⟩

/-- MEM-16: the STOR at 100 writes the next instruction. -/
theorem witness_NextFetchSeesTheStore :
    let s := at100 10 0 [104, 0x0B]
    s.cfg.wf = true ∧ s.mem.wf = true ∧ s.rs = .running ∧ s.cmds = [] ∧ s.inMemory s.ip = true ∧
      s.mem.read s.ip.toNat = s.cfg.opcodeMap.stor ∧ s.stack = 104 :: 0x0B :: [] ∧ s.inMemory 104 = true := by decide

theorem witness_StoreThenLoadGivesTheValueBack :
    let s := running (small 40 4 .strict (some 3)) 15 13 [1]
    (s.cfg.wf = true ∧ s.mem.wf = true ∧ s.inMemory 39 = true ∧ 0 ≤ s.ip.toInt ∧
      s.ip.toInt + 6 * s.cfg.stride < s.cfg.memSize) ∧
    ∀ c, s.cfg.stackCapacity = some c → s.stack.length + 2 ≤ c := by
  refine ⟨by decide, fun c h => ?_⟩
  have : c = 3 := by simpa [running, small] using h.symm
  subst this
  decide

/-- The end of the listing of R81: HALT at 12, STRIDE 4. -/
theorem witness_HaltIdiomHaltsInTwoSteps :
    let s : State := { at100 0 0 [] with mem := [(12, 0x0D), (16, 0x14), (20, 0x0B)], ip := 12 }
    (s.cfg.wf = true ∧ s.rs = .running ∧ s.cmds = [] ∧ s.hasRoom = true ∧ 0 ≤ s.ip.toInt ∧
      s.ip.toInt + 2 * s.cfg.stride < s.cfg.memSize) ∧
    ∀ (k : Nat) (w : Word), (encodeProgram s.cfg.opcodeMap (haltIdiom s.cfg.stride s.ip))[k]? = some w →
      s.mem.read (s.ip.toNat + k * s.cfg.stride) = w := by
  refine ⟨by decide, fun k w h => ?_⟩
  match k, h with
  | 0, h => exact Option.some.inj h
  | 1, h => exact Option.some.inj h
  | 2, h => exact Option.some.inj h
  | _ + 3, h => exact nomatch h

/-- F5c: N = 18 is no multiple of STRIDE. -/
theorem witness_EmptyProgramRunsOffTheEnd :
    let s : State := { State.reset with cfg := small 18 4 .strict none, rs := .running }
    s.cfg.wf = true ∧ s.rs = .running ∧ s.cmds = [] ∧ s.mem = [] ∧ s.ip = 0 := by decide

end Sys2Proof.Tests
end

