-- ==== Sys2Proof/Proofs/IpAndExitStatus.lean ====
section
/-! PROOFS. Where `ip` stands after an instruction (R27), and the exit status of each run state (R45). -/

namespace Sys2Proof.Machine

variable {s t : State}

/-! ## The exit status -/

@[simp] theorem exitStatus_of_halted (h : s.rs = .halted) : s.exitStatus = some 0 := by simp [State.exitStatus, h]

@[simp] theorem exitStatus_of_fatal (h : s.rs = .fatal) : s.exitStatus = some 1 := by simp [State.exitStatus, h]

@[simp] theorem exitStatus_of_loading (h : s.rs = .loading) : s.exitStatus = none := by simp [State.exitStatus, h]

@[simp] theorem exitStatus_of_running (h : s.rs = .running) : s.exitStatus = none := by simp [State.exitStatus, h]

/-- Settles O45, one lemma for each run state. -/
theorem exitStatusFollowsTheRunState : Obligations.ExitStatusFollowsTheRunState := by
  intro s
  refine ⟨exitStatus_of_halted, exitStatus_of_fatal, ?_⟩
  rintro (hl | hr)
  · exact exitStatus_of_loading hl
  · exact exitStatus_of_running hr

/-! ## The instruction pointer -/

/-- R27 for one next state `t` of an instruction run from `s`: a raise or a halt leaves `ip`, and an instruction that goes on
has done with `ip` what `done` says. -/
def MovesIp (s t : State) (done : Prop) : Prop :=
  (t.rs ≠ .running → t.ip = s.ip) ∧ (t.rs = .running → done)

variable {done : Prop}

theorem movesIp_raised (k : FatalKind) (op : FatalOp) : MovesIp s (s.raised k op) done :=
  ⟨fun _ => rfl, fun h => nomatch h⟩

theorem movesIp_of_running (hr : t.rs = .running) (hd : done) : MovesIp s t done :=
  ⟨fun hn => absurd hr hn, fun _ => hd⟩

/-- Only IN and OUT can be held, so for every other instruction the exceptions of R112 may be assumed away. -/
theorem MovesIp.unlessHeld {held held' : Prop} (h : MovesIp s t done) : MovesIp s t (¬ held → ¬ held' → done) :=
  h.imp_right fun hd hr _ _ => hd hr

theorem execNop_movesIp (hr : s.rs = .running) (h : execNop s = .next t) :
    MovesIp s t (t.ip = s.ip + s.strideWord) := by
  obtain rfl := execNop_next h
  exact movesIp_of_running hr rfl

theorem binary_movesIp {o : Opcode} {f : Word → Word → Word} (hr : s.rs = .running) (h : binary o f s = .next t) :
    MovesIp s t (t.ip = s.ip + s.strideWord) := by
  obtain ⟨-, rfl⟩ | ⟨a, b, rest, -, -, rfl⟩ := binary_next h
  · exact movesIp_raised _ _
  · exact movesIp_of_running hr rfl

theorem execNot_movesIp (hr : s.rs = .running) (h : execNot s = .next t) :
    MovesIp s t (t.ip = s.ip + s.strideWord) := by
  obtain ⟨-, rfl⟩ | ⟨a, rest, -, -, rfl⟩ := unary_next h
  · exact movesIp_raised _ _
  · exact movesIp_of_running hr rfl

theorem execIn_movesIp (hr : s.rs = .running) (h : execIn s = .next t) :
    MovesIp s t (¬ t.inReq = true → t.ip = s.ip + s.strideWord) := by
  obtain ⟨-, rfl⟩ | ⟨r, -, -, rfl⟩ := execIn_next h
  · exact movesIp_of_running hr fun hheld => absurd rfl hheld
  · exact movesIp_of_running hr fun _ => rfl

theorem execOut_movesIp (hr : s.rs = .running) (h : execOut s = .next t) :
    MovesIp s t (¬ t.outReq ≠ none → t.ip = s.ip + s.strideWord) := by
  obtain ⟨-, rfl⟩ | ⟨a, rest, -, ⟨-, rfl⟩ | ⟨-, rfl⟩⟩ := execOut_next h
  · exact movesIp_raised _ _
  · exact movesIp_of_running hr fun hheld => absurd (Option.some_ne_none _) hheld
  · exact movesIp_of_running hr fun _ => rfl

theorem execLoad_movesIp (hr : s.rs = .running) (h : execLoad s = .next t) :
    MovesIp s t (t.ip = s.ip + s.strideWord) := by
  obtain ⟨-, rfl⟩ | ⟨a, rest, -, ⟨-, rfl⟩ | ⟨-, -, rfl⟩⟩ := execLoad_next h
  · exact movesIp_raised _ _
  · exact movesIp_raised _ _
  · exact movesIp_of_running hr rfl

theorem execStor_movesIp (hr : s.rs = .running) (h : execStor s = .next t) :
    MovesIp s t (t.ip = s.ip + s.strideWord) := by
  obtain ⟨-, rfl⟩ | ⟨a, v, rest, -, ⟨-, rfl⟩ | ⟨-, rfl⟩⟩ := execStor_next h
  · exact movesIp_raised _ _
  · exact movesIp_raised _ _
  · exact movesIp_of_running hr rfl

/-- JMP halts with `ip` as it was or makes it the popped address (R130). -/
theorem execJmp_movesIp (hr : s.rs = .running) (h : execJmp s = .next t) :
    MovesIp s t (s.stack.head? = some t.ip) := by
  obtain ⟨-, rfl⟩ | ⟨a, rest, hs, ⟨-, rfl⟩ | ⟨-, -, rfl⟩ | ⟨-, -, rfl⟩⟩ := execJmp_next h
  · exact movesIp_raised _ _
  · exact movesIp_raised _ _
  · exact ⟨fun _ => rfl, fun hrun => nomatch hrun⟩
  · exact movesIp_of_running hr (by simp [hs])

/-- JZ makes `ip` 0 on a popped 0, and advances it on any other Word (R131). -/
theorem execJz_movesIp (hr : s.rs = .running) (h : execJz s = .next t) :
    MovesIp s t (t.ip = if s.stack.head? = some 0 then 0 else s.ip + s.strideWord) := by
  obtain ⟨-, rfl⟩ | ⟨a, rest, hs, ⟨ha, rfl⟩ | ⟨ha, -, rfl⟩ | ⟨-, -, rfl⟩⟩ := execJz_next h
  · exact movesIp_raised _ _
  · exact movesIp_of_running hr (by simp [hs, ha, State.strideWord])
  · exact movesIp_of_running hr (by simp [hs, ha])
  · exact movesIp_raised _ _

/-- Two advances are one by twice the stride. -/
theorem advance_advance_ip (s : State) : s.advance.advance.ip = s.ip + BitVec.ofNat 32 (2 * s.cfg.stride) := by
  rw [two_mul, BitVec.ofNat_add, ← add_assoc]
  rfl

theorem execPush_movesIp {v : Word} (hr : s.rs = .running) (h : execPush v s = .next t) :
    MovesIp s t (t.ip = s.ip + BitVec.ofNat 32 (2 * s.cfg.stride)) := by
  obtain ⟨-, rfl⟩ | ⟨-, -, rfl⟩ := execPush_next h
  · exact movesIp_raised _ _
  · exact movesIp_of_running hr (advance_advance_ip _)

theorem execDup_movesIp (hr : s.rs = .running) (h : execDup s = .next t) :
    MovesIp s t (t.ip = s.ip + s.strideWord) := by
  obtain ⟨-, rfl⟩ | ⟨a, rest, -, -, rfl⟩ := execDup_next h
  · exact movesIp_raised _ _
  · exact movesIp_of_running hr rfl

/-- Settles O41: the law of each instruction, with the two that can be held set apart. -/
theorem ipMovesAsEachInstructionSays : Obligations.IpMovesAsEachInstructionSays := by
  intro i s t hr h
  cases i with
  | nop => exact (execNop_movesIp hr h).unlessHeld
  | add | sub | and | or | xor => exact (binary_movesIp hr h).unlessHeld
  | not => exact (execNot_movesIp hr h).unlessHeld
  | inp => exact (execIn_movesIp hr h).imp_right fun hd hrun hheld _ => hd hrun fun hreq => hheld ⟨rfl, hreq⟩
  | out => exact (execOut_movesIp hr h).imp_right fun hd hrun _ hheld => hd hrun fun hreq => hheld ⟨rfl, hreq⟩
  | load => exact (execLoad_movesIp hr h).unlessHeld
  | stor => exact (execStor_movesIp hr h).unlessHeld
  | jmp => exact (execJmp_movesIp hr h).unlessHeld
  | jz => exact (execJz_movesIp hr h).unlessHeld
  | push => exact (execPush_movesIp hr h).unlessHeld
  | dup => exact (execDup_movesIp hr h).unlessHeld

end Sys2Proof.Machine
end

