-- ==== Sys2Proof/Proofs/Encoding.lean ====
section
/-! PROOFS. What an opcode Word selects (R73, R74), and the cycles of an unrecognized Word and of PUSH (R74, R75). -/

namespace Sys2Proof

/-- Settles O13: a well-formed map is injective, and only NOP stands for Words beside its value. -/
theorem opcodeWordsAreComparedWhole : Obligations.OpcodeWordsAreComparedWhole := by
  intro m hm
  exact ⟨decodeOpcode_value hm, fun w o ho h => decodeOpcode_eq hm h ho⟩

/-- The default map numbers the opcodes in table order (R72, D1). -/
theorem OpcodeMap.default_values : Opcode.all.map OpcodeMap.default.value = (List.range 15).map (BitVec.ofNat 32) := by
  decide

theorem OpcodeMap.exists_default_value_iff (w : Word) : (∃ o, OpcodeMap.default.value o = w) ↔ w.toNat < 15 := by
  calc (∃ o, OpcodeMap.default.value o = w)
      ↔ w ∈ Opcode.all.map OpcodeMap.default.value := by simp [Opcode.mem_all]
    _ ↔ ∃ k, k < 15 ∧ BitVec.ofNat 32 k = w := by simp only [OpcodeMap.default_values, List.mem_map, List.mem_range]
    _ ↔ w.toNat < 15 := by
      constructor
      · rintro ⟨k, hk, rfl⟩
        rw [BitVec.toNat_ofNat]
        omega
      · exact fun hw => ⟨w.toNat, hw, by simp⟩

/-- The Words that the default map leaves unrecognized (R74). -/
theorem OpcodeMap.default_unrecognized_iff (w : Word) :
    (∀ o, OpcodeMap.default.value o ≠ w) ↔ (w.toInt < 0 ∨ 14 < w.toInt) := by
  rw [← not_exists, OpcodeMap.exists_default_value_iff, BitVec.toInt_eq_toNat_cond]
  omega

namespace Machine

variable {s : State}

/-- A step of a running core with no transaction before it, at an `ip` that has a cell (R26). -/
theorem step_of_fetched (hw : s.cfg.wf = true) (hr : s.rs = .running) (hc : s.cmds = []) (hip : s.inMemory s.ip = true) :
    step s = exec s.instrAtIp s.traced := by
  rw [step_of_wf hw, turn_of_nil hc, coreTurn_of_running hr, cycle_of_inMemory hip]

theorem opcodeAtIp_eq (s : State) : s.opcodeAtIp = decodeOpcode s.cfg.opcodeMap (s.mem.read s.ip.toNat) := rfl

theorem instrAtIp_eq (s : State) : s.instrAtIp = s.opcodeAtIp.withLiteral s.literalWord := rfl

theorem instrAtIp_of_nop (h : s.opcodeAtIp = .nop) : s.instrAtIp = .nop := by
  rw [instrAtIp_eq, h]
  rfl

/-- The literal of a PUSH is the Word of the slot after it, undecoded (R75). -/
theorem instrAtIp_of_push (h : s.opcodeAtIp = .push) : s.instrAtIp = .push s.literalWord := by
  rw [instrAtIp_eq, h]
  rfl

/-- The Word after `ip` is the cell one stride on; the address does not wrap (R25). -/
theorem literalWord_eq_read (hw : s.cfg.wf = true) (hip : s.ip.toNat < s.cfg.memSize + s.cfg.stride) :
    s.literalWord = s.mem.read (s.ip.toNat + s.cfg.stride) := by
  rw [← toNat_add_stride hw hip]
  rfl

theorem advance_advance (s : State) : s.advance.advance = { s with ip := s.ip + BitVec.ofNat 32 (2 * s.cfg.stride) } := by
  rw [← advance_advance_ip]
  rfl

/-- PUSH with its literal slot in Memory and room on the stack (R140). -/
theorem execPush_of_inMemory_of_room {v : Word} (hm : s.inMemory (s.ip + s.strideWord) = true) (hroom : s.hasRoom = true) :
    execPush v s = .next { s with stack := v :: s.stack, ip := s.ip + BitVec.ofNat 32 (2 * s.cfg.stride) } := by
  rw [execPush, fetch_of_inMemory hm, push_of_room hroom, advance_advance]

/-- Settles O14: what decodes to NOP runs as NOP, which only advances. -/
theorem unrecognizedWordsBehaveAsNop : Obligations.UnrecognizedWordsBehaveAsNop := by
  refine ⟨fun m w => decodeOpcode_of_unrecognized, OpcodeMap.default_unrecognized_iff, ?_⟩
  intro s hw hr hc hlo hhi hun
  have hnop : s.instrAtIp = .nop := instrAtIp_of_nop (decodeOpcode_of_unrecognized hun)
  calc step s
      = execNop s.traced := by rw [step_of_fetched hw hr hc ((inMemory_iff s s.ip).mpr ⟨hlo, hhi⟩), hnop]; rfl
    _ = .next s.traced.advance := rfl
    _ = .next { s.traced with ip := s.ip + BitVec.ofNat 32 s.cfg.stride } := by
      rw [State.advance, traced_ip, traced_strideWord]
      rfl

/-- Settles O21: the opcode Word selects PUSH, and the slot that PUSH checks and takes is the cell one stride on. -/
theorem pushTakesTheWholeNextSlot : Obligations.PushTakesTheWholeNextSlot := by
  intro s hw hr hc hlo hhi hroom hop
  rw [toInt_eq_toNat hlo] at hhi
  have hnext : s.ip.toNat + s.cfg.stride < s.cfg.memSize := by exact_mod_cast hhi
  have hip : s.inMemory s.ip = true := (inMemory_iff_toNat hw _).mpr (by omega)
  have hlit : s.inMemory (s.ip + s.strideWord) = true := by
    rw [inMemory_iff_toNat hw, toNat_add_stride hw (by omega)]
    exact hnext
  have hpush : s.opcodeAtIp = .push := by
    rw [opcodeAtIp_eq, hop]
    exact decodeOpcode_value (opcodeMap_wf hw) .push
  calc step s
      = execPush s.literalWord s.traced := by rw [step_of_fetched hw hr hc hip, instrAtIp_of_push hpush]; rfl
    _ = .next { s.traced with
          stack := s.literalWord :: s.traced.stack,
          ip := s.traced.ip + BitVec.ofNat 32 (2 * s.traced.cfg.stride) } :=
      execPush_of_inMemory_of_room (by simpa using hlit) (by simpa using hroom)
    _ = .next { s.traced with
          stack := s.mem.read (s.ip.toNat + s.cfg.stride) :: s.stack,
          ip := s.ip + BitVec.ofNat 32 (2 * s.cfg.stride) } := by
      rw [literalWord_eq_read hw (by omega), traced_stack, traced_ip, traced_cfg]

end Machine

end Sys2Proof
end

