-- ==== Sys2Proof/Proofs/Halt.lean ====
section
/-! PROOFS. How a run ends normally: only by a JMP to its own address (R134). -/

namespace Sys2Proof.Machine

variable {s t : State} {i : Instr}

/-- Only JMP can halt: every other instruction of a running machine goes on, is held, or raises (R134, R152). -/
theorem exec_running_or_fatal (hr : s.rs = .running) (hi : i ≠ .jmp) (h : exec i s = .next t) :
    t.rs = .running ∨ t.rs = .fatal := by
  cases i with
  | nop =>
    obtain rfl := execNop_next h
    exact .inl hr
  | add | sub | and | or | xor =>
    obtain ⟨-, rfl⟩ | ⟨a, b, rest, -, -, rfl⟩ := binary_next h
    · exact .inr rfl
    · exact .inl hr
  | not =>
    obtain ⟨-, rfl⟩ | ⟨a, rest, -, -, rfl⟩ := unary_next h
    · exact .inr rfl
    · exact .inl hr
  | inp =>
    obtain ⟨-, rfl⟩ | ⟨r, -, -, rfl⟩ := execIn_next h
    · exact .inl hr
    · exact .inl hr
  | out =>
    obtain ⟨-, rfl⟩ | ⟨a, rest, -, ⟨-, rfl⟩ | ⟨-, rfl⟩⟩ := execOut_next h
    · exact .inr rfl
    · exact .inl hr
    · exact .inl hr
  | load =>
    obtain ⟨-, rfl⟩ | ⟨a, rest, -, ⟨-, rfl⟩ | ⟨-, -, rfl⟩⟩ := execLoad_next h
    · exact .inr rfl
    · exact .inr rfl
    · exact .inl hr
  | stor =>
    obtain ⟨-, rfl⟩ | ⟨a, v, rest, -, ⟨-, rfl⟩ | ⟨-, rfl⟩⟩ := execStor_next h
    · exact .inr rfl
    · exact .inr rfl
    · exact .inl hr
  | jmp => exact absurd rfl hi
  | jz =>
    obtain ⟨-, rfl⟩ | ⟨a, rest, -, ⟨-, rfl⟩ | ⟨-, -, rfl⟩ | ⟨-, -, rfl⟩⟩ := execJz_next h
    · exact .inr rfl
    · exact .inl hr
    · exact .inl hr
    · exact .inr rfl
  | push literal =>
    obtain ⟨-, rfl⟩ | ⟨-, -, rfl⟩ := execPush_next h
    · exact .inr rfl
    · exact .inl hr
  | dup =>
    obtain ⟨-, rfl⟩ | ⟨a, rest, -, -, rfl⟩ := execDup_next h
    · exact .inr rfl
    · exact .inl hr

/-- A JMP that halts has popped its own address and changed nothing else (R130, R41). -/
theorem execJmp_halted (hr : s.rs = .running) (h : execJmp s = .next t) (ht : t.rs = .halted) :
    s.stack = s.ip :: t.stack ∧ t.ip = s.ip ∧ t.mem = s.mem := by
  obtain ⟨-, rfl⟩ | ⟨a, rest, hs, ⟨-, rfl⟩ | ⟨-, rfl, rfl⟩ | ⟨-, -, rfl⟩⟩ := execJmp_next h
  · nomatch ht
  · nomatch ht
  · exact ⟨hs, rfl, rfl⟩
  · nomatch hr.symm.trans ht

theorem exec_halted (hr : s.rs = .running) (h : exec i s = .next t) (ht : t.rs = .halted) :
    i = .jmp ∧ s.stack = s.ip :: t.stack ∧ t.ip = s.ip ∧ t.mem = s.mem := by
  by_cases hi : i = .jmp
  · subst hi
    exact ⟨rfl, execJmp_halted hr h ht⟩
  · obtain hrun | hfatal := exec_running_or_fatal hr hi h
    · nomatch hrun.symm.trans ht
    · nomatch hfatal.symm.trans ht

/-- The core's turn halts only by its instruction: a failed fetch is fatal (R155). -/
theorem coreTurn_halted (hr : s.rs = .running) (h : coreTurn s = .next t) (ht : t.rs = .halted) :
    s.opcodeAtIp = .jmp ∧ s.stack = s.ip :: t.stack ∧ t.ip = s.ip ∧ t.mem = s.mem := by
  obtain ⟨hn, -⟩ | ⟨-, -, rfl⟩ | ⟨-, -, hx⟩ := coreTurn_next h
  · exact absurd hr hn
  · nomatch ht
  · obtain ⟨hjmp, hsame⟩ := exec_halted ((traced_rs s).trans hr) hx ht
    refine ⟨?_, by simpa using hsame⟩
    rw [← opcode_instrAtIp, hjmp]
    rfl

/-- No transaction of the host halts a running machine (R46). -/
theorem hostMove_not_halted {m : HostMove} (hr : s.rs = .running) (h : hostMove m s = .next t) : t.rs ≠ .halted := by
  intro ht
  obtain rfl | ⟨-, rfl⟩ | ⟨v, -, hl, -⟩ | ⟨-, hl, -⟩ | ⟨a, -, -, -, -, rfl⟩ |
    ⟨b, -, -, -, ⟨-, rfl⟩ | ⟨a, rest, -, rfl⟩⟩ := hostMove_next h
  · nomatch hr.symm.trans ht
  · nomatch ht
  · nomatch hr.symm.trans hl
  · nomatch hr.symm.trans hl
  · nomatch hr.symm.trans ht
  · nomatch ht
  · nomatch hr.symm.trans ht

theorem step_halted (hr : s.rs = .running) (h : step s = .next t) (ht : t.rs = .halted) :
    s.opcodeAtIp = .jmp ∧ s.stack = s.ip :: t.stack ∧ t.ip = s.ip ∧ t.mem = s.mem := by
  obtain ⟨-, ⟨c, -, hcore⟩ | ⟨m, rest, -, -, hmove⟩⟩ := step_next h
  · exact coreTurn_halted (s := { s with cmds := c }) hr hcore ht
  · exact absurd ht (hostMove_not_halted (s := { s with cmds := rest }) hr hmove)

/-- Settles O44: the step law and the instruction law, with the exit status of Halted. -/
theorem onlyASelfJumpHalts : Obligations.OnlyASelfJumpHalts := by
  constructor
  · intro s t h hr ht
    obtain ⟨hop, hs, hip, hm⟩ := step_halted hr h ht
    exact ⟨hop, hs, hip, hm, exitStatus_of_halted ht⟩
  · intro i s t hr h ht
    obtain ⟨hi, hs, hip, hm⟩ := exec_halted hr h ht
    exact ⟨hi, t.stack, hs, rfl, hip, hm, exitStatus_of_halted ht⟩

end Sys2Proof.Machine
end

