-- ==== Sys2Proof/Proofs/RoundTrip.lean ====
section
/-! PROOFS. Encoding and decoding are inverse to each other on opcode Words (R70, R72 to R76), and the names of the opcodes
(R78). -/

namespace Sys2Proof

variable {m : OpcodeMap} {w v : Word} {i : Instr}

/-! ## Instructions as an opcode and a literal -/

theorem Instr.exists_eq_push (h : i.opcode = .push) : ∃ v, i = .push v := by
  cases i with
  | push v => exact ⟨v, rfl⟩
  | _ => nomatch h

/-- Only PUSH has a literal (R75). -/
theorem Instr.withLiteral_opcode (h : i.opcode ≠ .push) (v : Word) : i.opcode.withLiteral v = i := by
  cases i with
  | push v => exact absurd rfl h
  | _ => rfl

theorem encode_of_ne_push (h : i.opcode ≠ .push) : encode m i = [m.value i.opcode] := by
  cases i with
  | push v => exact absurd rfl h
  | _ => rfl

/-! ## The two cases of decoding (R76) -/

theorem decode_of_push (h : decodeOpcode m w = .push) (rest : List Word) : decode m (w :: v :: rest) = .ok (.push v, rest) := by
  simp [decode, decodeSlots, h, Opcode.withLiteral]

theorem decode_of_ne_push (h : decodeOpcode m w ≠ .push) (rest : List Word) :
    decode m (w :: rest) = .ok ((decodeOpcode m w).withLiteral 0, rest) := by
  simp [decode, decodeSlots, h]

/-- A list of slots that decodes to an instruction begins with PUSH and a literal, or with another opcode. -/
theorem decode_ok {slots rest : List Word} (h : decode m (w :: slots) = .ok (i, rest)) :
    (decodeOpcode m w = .push ∧ ∃ v, slots = v :: rest ∧ i = .push v) ∨
    (decodeOpcode m w ≠ .push ∧ slots = rest ∧ i = (decodeOpcode m w).withLiteral 0) := by
  by_cases hp : decodeOpcode m w = .push
  · cases slots with
    | nil => simp [decode, hp] at h
    | cons v slots =>
      rw [decode_of_push hp] at h
      cases h
      exact .inl ⟨hp, v, rfl, rfl⟩
  · rw [decode_of_ne_push hp] at h
    cases h
    exact .inr ⟨hp, rfl, rfl⟩

/-- Settles O11: PUSH takes its literal from the second slot, every other instruction is its opcode. -/
theorem decodeOfEncodeIsTheInstruction : Obligations.DecodeOfEncodeIsTheInstruction := by
  intro m i rest hm
  by_cases hp : i.opcode = .push
  · obtain ⟨v, rfl⟩ := Instr.exists_eq_push hp
    exact decode_of_push (decodeOpcode_value hm .push) rest
  · have hop : decodeOpcode m (m.value i.opcode) = i.opcode := decodeOpcode_value hm i.opcode
    calc decode m (encode m i ++ rest)
        = decode m (m.value i.opcode :: rest) := by rw [encode_of_ne_push hp, List.singleton_append]
      _ = .ok (i.opcode.withLiteral 0, rest) := by rw [decode_of_ne_push (by rwa [hop]), hop]
      _ = .ok (i, rest) := by rw [Instr.withLiteral_opcode hp]

/-- Settles O12: an opcode Word is the map's value of what it decodes to. -/
theorem encodeOfDecodeIsTheSlots : Obligations.EncodeOfDecodeIsTheSlots := by
  intro m w slots rest i hm hw h
  have hval : m.value (decodeOpcode m w) = w := value_decodeOpcode hm hw
  obtain ⟨hp, v, rfl, rfl⟩ | ⟨hp, rfl, rfl⟩ := decode_ok h
  · rw [hp] at hval
    rw [← hval]
    rfl
  · rw [encode_of_ne_push (by simpa using hp), opcode_withLiteral, hval, List.singleton_append]

/-- Settles O15 by running the decoder. -/
theorem tableWordsDecode : Obligations.TableWordsDecode := by
  unfold Obligations.TableWordsDecode
  decide

/-! ## Names -/

theorem opcodeName_value (hm : m.wf = true) (o : Opcode) : opcodeName m (m.value o) = o.name := by
  rw [opcodeName, decodeOpcode_value hm]

/-- Settles O18: the name of a Word is that of the opcode it decodes to. -/
theorem opcodeNamesAreTheMnemonics : Obligations.OpcodeNamesAreTheMnemonics := by
  refine ⟨fun m hm => ⟨?_, fun o => (opcodeName_value hm o).symm⟩, fun m w hw => ?_, rfl⟩
  · simp only [opcodeName_value hm]
    rfl
  · rw [opcodeName, decodeOpcode_of_unrecognized hw]
    rfl

end Sys2Proof
end

