-- ==== Sys2Proof/Proofs/HostMoves.lean ====
section
/-! PROOFS. The host's transactions outside a held cycle: reset, load and start (R180 to R184), and the transactions that are
ignored (R46, R48). -/

namespace Sys2Proof.Machine

variable {s : State} {rest : List HostMove}

/-! ## What each transaction does -/

theorem step_of_move {m : HostMove} (hw : s.cfg.wf = true) (hc : s.cmds = m :: rest) (hm : m ≠ .idle) :
    step s = hostMove m { s with cmds := rest } := by
  rw [step_of_wf hw, turn_of_move hc hm]

theorem loadWord_of_inMemory {v : Word} (h : s.inMemory s.ip = true) :
    loadWord v s = .next (s.setCell s.ip v).advance := by
  simp [loadWord, h]

theorem loadWord_of_not {v : Word} (h : s.inMemory s.ip = false) : loadWord v s = .refused .loadOverflow := by
  simp [loadWord, h]

theorem hostMove_loadWord (h : s.rs = .loading) (v : Word) : hostMove (.loadWord v) s = loadWord v s := by
  simp [hostMove, h]

theorem hostMove_start (h : s.rs = .loading) : hostMove .start s = .next s.started := by
  simp [hostMove, h]

theorem hostMove_inResp (hr : s.rs = .running) (hq : s.inReq = true) (a : InAnswer) :
    hostMove (.inResp a) s = finishIn a s.answered := by
  simp [hostMove, hr, hq]

theorem hostMove_outAck {b : Byte} (hr : s.rs = .running) (hq : s.outReq = some b) : hostMove .outAck s = finishOut b s := by
  simp [hostMove, hr, hq]

/-- A transaction that the run state does not accept, or an answer that meets no request (R46, D24). -/
def HostMove.Misplaced (m : HostMove) (s : State) : Prop :=
  (s.rs ≠ .loading ∧ (m = .start ∨ ∃ w, m = .loadWord w)) ∨
  (¬ (s.rs = .running ∧ s.inReq = true) ∧ ∃ a, m = .inResp a) ∨
  (¬ (s.rs = .running ∧ s.outReq ≠ none) ∧ m = .outAck)

theorem HostMove.Misplaced.ne_idle {m : HostMove} (h : m.Misplaced s) : m ≠ .idle := by
  rintro rfl
  simp [HostMove.Misplaced] at h

theorem hostMove_of_misplaced {m : HostMove} (h : m.Misplaced s) : hostMove m s = .next s := by
  obtain ⟨hr, rfl | ⟨w, rfl⟩⟩ | ⟨hq, a, rfl⟩ | ⟨hq, rfl⟩ := h
  · simp [hostMove, hr]
  · simp [hostMove, hr]
  · simp only [hostMove, if_neg hq]
  · cases ho : s.outReq with
    | none => simp [hostMove, ho]
    | some b =>
      have hr : s.rs ≠ .running := fun hr => hq ⟨hr, by simp [ho]⟩
      simp [hostMove, ho, hr]

theorem step_of_misplaced {m : HostMove} (hw : s.cfg.wf = true) (hc : s.cmds = m :: rest) (h : m.Misplaced s) :
    step s = .next { s with cmds := rest } :=
  (step_of_move hw hc h.ne_idle).trans (hostMove_of_misplaced h)

/-! ## Reset, load and start -/

/-- Settles O1 by evaluation; the opcode values are those of the default map. -/
theorem resetStateHoldsTheResetValues : Obligations.ResetStateHoldsTheResetValues :=
  ⟨Memory.read_nil, rfl, rfl, rfl, rfl, rfl, rfl, rfl, rfl, rfl, rfl, OpcodeMap.default_values, rfl, rfl⟩

/-- Settles O2: `reset` is accepted without a look at the run state. -/
theorem resetIsAcceptedInEveryRunState : Obligations.ResetIsAcceptedInEveryRunState := by
  intro s rest hw hc
  rw [step_of_move hw hc (by simp)]
  rfl

/-- Settles O3: with a cell at the cursor the write is the memory's own law; at or past N there is no cell. -/
theorem loadWordWritesTheCursorCell : Obligations.LoadWordWritesTheCursorCell := by
  intro s v rest hw hl hc
  have hstep : step s = loadWord v { s with cmds := rest } := by
    rw [step_of_move hw hc (by simp), hostMove_loadWord (by exact hl)]
  refine ⟨fun hlo hhi hm => ⟨s.mem.write s.ip.toNat v, ?_, ?_, ?_, ?_⟩, fun hend => ?_⟩
  · have hcell : s.inMemory s.ip = true := (inMemory_iff s s.ip).mpr ⟨hlo, hhi⟩
    rw [hstep, loadWord_of_inMemory (by exact hcell)]
    rfl
  · exact Memory.read_write_same hm _ v
  · exact fun a ha => Memory.read_write_other hm v ha
  · exact Memory.wf_write hm _ v
  · have hcell : s.inMemory s.ip = false := by
      rw [Bool.eq_false_iff, Ne, inMemory_iff]
      omega
    rw [hstep, loadWord_of_not (by exact hcell)]

/-- Settles O4. -/
theorem startSetsIpToZeroAndRuns : Obligations.StartSetsIpToZeroAndRuns := by
  intro s rest hw hl hc
  rw [step_of_move hw hc (by simp), hostMove_start (by exact hl)]
  rfl

/-! ## Ignored transactions -/

/-- Settles O5. -/
theorem misplacedTransactionsAreIgnored : Obligations.MisplacedTransactionsAreIgnored :=
  fun _ _ _ hw hc h => step_of_misplaced hw hc h

/-- Outside Loading, what is neither `reset` nor the answer to a standing request is misplaced. -/
theorem misplaced_of_not_loading {m : HostMove} (hl : s.rs ≠ .loading) (hi : m ≠ .idle) (hreset : m ≠ .reset)
    (hin : ¬ ((s.rs = .running ∧ s.inReq = true) ∧ ∃ a, m = .inResp a))
    (hout : ¬ ((s.rs = .running ∧ s.outReq ≠ none) ∧ m = .outAck)) : m.Misplaced s := by
  cases m with
  | idle => exact absurd rfl hi
  | reset => exact absurd rfl hreset
  | loadWord w => exact .inl ⟨hl, .inr ⟨w, rfl⟩⟩
  | start => exact .inl ⟨hl, .inl rfl⟩
  | inResp a => exact .inr (.inl ⟨fun h => hin ⟨h, a, rfl⟩, a, rfl⟩)
  | outAck => exact .inr (.inr ⟨fun h => hout ⟨h, rfl⟩, rfl⟩)

/-- Settles O6: such a transaction is misplaced, so only the host's list changes. -/
theorem hostCannotTouchARunningCore : Obligations.HostCannotTouchARunningCore := by
  intro s m rest hw hr hc hi hreset hin hout
  have hm : m.Misplaced s := misplaced_of_not_loading (by simp [hr]) hi hreset
    (fun h => hin ⟨h.1.2, h.2⟩) fun h => hout ⟨h.1.2, h.2⟩
  exact ⟨_, step_of_misplaced hw hc hm,
    ⟨rfl, rfl, rfl, rfl, rfl⟩, rfl, rfl, rfl, rfl, rfl, rfl, rfl⟩

end Sys2Proof.Machine
end

