-- ==== Sys2Proof/Proofs/Tracing.lean ====
section
/-! PROOFS. Tracing changes nothing but the trace (R171): every primitive, every instruction, every transaction of the host and
so every step commutes with forgetting the trace. -/

namespace Sys2Proof.Machine

/-! ## The state without its trace -/

theorem untraced_instrAtIp (s : State) : s.untraced.instrAtIp = s.instrAtIp := rfl

/-- The record of a cycle is forgotten with the trace. -/
theorem untraced_traced (s : State) : s.traced.untraced = s.untraced := by
  unfold State.traced
  split <;> rfl

/-- A machine that does not trace emits no record. -/
theorem traced_untraced (s : State) : s.untraced.traced = s.untraced := traced_of_disabled _ rfl

/-- `f` forgets the trace: what it answers on a state is, but for the trace, what it answers on the state without it. -/
def IgnoresTrace (f : State → Result) : Prop := ∀ s, mapNext State.untraced (f s) = f s.untraced

/-! ## The primitives of R12 -/

/-- An answer that is a function of the state, where that function leaves the trace alone. -/
theorem ignoresTrace_next {g : State → State} (hg : ∀ s, (g s).untraced = g s.untraced) :
    IgnoresTrace fun s => .next (g s) :=
  fun s => congrArg Host.Outcome.next (hg s)

theorem ignoresTrace_advance : IgnoresTrace fun s => .next s.advance := ignoresTrace_next fun _ => rfl

theorem ignoresTrace_pop {o : Opcode} {k : Word → State → Result} (hk : ∀ a, IgnoresTrace (k a)) :
    IgnoresTrace fun s => pop o s k := by
  intro s
  beta_reduce
  cases hs : s.stack with
  | nil => rw [pop_of_nil hs, pop_of_nil (s := s.untraced) hs]; rfl
  | cons a rest => rw [pop_of_cons hs, pop_of_cons (s := s.untraced) hs]; exact hk a _

theorem ignoresTrace_push {v : Word} {k : State → Result} (hk : IgnoresTrace k) : IgnoresTrace fun s => push v s k := by
  intro s
  beta_reduce
  cases hr : s.hasRoom with
  | false => rw [push_of_full hr, push_of_full (s := s.untraced) hr]; rfl
  | true => rw [push_of_room hr, push_of_room (s := s.untraced) hr]; exact hk _

theorem ignoresTrace_boundsCheck {a : Word} {o : Opcode} {k : State → Result} (hk : IgnoresTrace k) :
    IgnoresTrace fun s => boundsCheck a o s k := by
  intro s
  beta_reduce
  cases ha : s.admits a with
  | false => rw [boundsCheck_of_not ha, boundsCheck_of_not (s := s.untraced) ha]; rfl
  | true => rw [boundsCheck_of_admits ha, boundsCheck_of_admits (s := s.untraced) ha]; exact hk s

/-- The rest of an instruction after a read may use the state as well as the Word read. -/
theorem ignoresTrace_memRead {a : Word} {k : State → Word → Result} (hk : ∀ v, IgnoresTrace fun s => k s v) :
    IgnoresTrace fun s => memRead a s (k s) := by
  intro s
  beta_reduce
  cases ha : s.inMemory a with
  | false => rw [memRead_of_not ha, memRead_of_not (s := s.untraced) ha]; rfl
  | true => rw [memRead_of_inMemory ha, memRead_of_inMemory (s := s.untraced) ha]; exact hk _ s

theorem ignoresTrace_memWrite {a v : Word} {k : State → Result} (hk : IgnoresTrace k) :
    IgnoresTrace fun s => memWrite a v s k := by
  intro s
  beta_reduce
  cases ha : s.inMemory a with
  | false => rw [memWrite_of_not ha, memWrite_of_not (s := s.untraced) ha]; rfl
  | true => rw [memWrite_of_inMemory ha, memWrite_of_inMemory (s := s.untraced) ha]; exact hk _

/-- Both the address of a fetch and what follows it may depend on the state, the address not on the trace. -/
theorem ignoresTrace_fetch {a : State → Word} {op : FatalOp} {k : State → Word → Result}
    (ha : ∀ s, a s.untraced = a s) (hk : ∀ v, IgnoresTrace fun s => k s v) :
    IgnoresTrace fun s => fetch (a s) op s (k s) := by
  intro s
  beta_reduce
  cases hm : s.inMemory (a s) with
  | false => rw [fetch_of_not hm, fetch_of_not (s := s.untraced) (by rw [ha]; exact hm)]; rfl
  | true =>
    rw [fetch_of_inMemory hm, fetch_of_inMemory (s := s.untraced) (by rw [ha]; exact hm), ha]
    exact hk _ s

theorem ignoresTrace_inByte {k : InAnswer → State → Result} (hk : ∀ a, IgnoresTrace (k a)) :
    IgnoresTrace fun s => inByte s k := by
  intro s
  beta_reduce
  cases hi : s.input.take.1 with
  | none => rw [inByte_of_none hi, inByte_of_none (s := s.untraced) hi]; rfl
  | some a => rw [inByte_of_some hi, inByte_of_some (s := s.untraced) hi]; exact hk a _

theorem ignoresTrace_finishIn (r : InAnswer) : IgnoresTrace (finishIn r) := ignoresTrace_push ignoresTrace_advance

theorem ignoresTrace_finishOut (b : Byte) : IgnoresTrace (finishOut b) :=
  ignoresTrace_pop fun _ => ignoresTrace_next fun _ => rfl

/-! ## Instructions -/

theorem ignoresTrace_binary (o : Opcode) (f : Word → Word → Word) : IgnoresTrace (binary o f) :=
  ignoresTrace_pop fun _ => ignoresTrace_pop fun _ => ignoresTrace_push ignoresTrace_advance

/-- OUT keeps the state before its pop for the hold, so its poll is split here. -/
theorem ignoresTrace_execOut : IgnoresTrace execOut := by
  intro s
  cases hs : s.stack with
  | nil => rw [execOut, execOut, pop_of_nil hs, pop_of_nil (s := s.untraced) hs]; rfl
  | cons a rest =>
    rw [execOut, execOut, pop_of_cons hs, pop_of_cons (s := s.untraced) hs]
    cases hk : s.sink.take.1 with
    | false => rw [outByte_of_false (by exact hk), outByte_of_false (by exact hk)]; rfl
    | true => rw [outByte_of_true (by exact hk), outByte_of_true (by exact hk)]; rfl

theorem ignoresTrace_execJmp : IgnoresTrace execJmp := by
  refine ignoresTrace_pop fun a => ignoresTrace_boundsCheck fun s => ?_
  by_cases he : a = s.ip
  · rw [if_pos he, if_pos (by exact he)]; rfl
  · rw [if_neg he, if_neg (by exact he)]; rfl

theorem ignoresTrace_execJz : IgnoresTrace execJz := by
  refine ignoresTrace_pop fun a => ?_
  cases isZero a with
  | false => exact ignoresTrace_advance
  | true => exact ignoresTrace_boundsCheck (ignoresTrace_next fun _ => rfl)

theorem ignoresTrace_exec (i : Instr) : IgnoresTrace (exec i) := by
  cases i with
  | nop => exact ignoresTrace_advance
  | add | sub | and | or | xor => exact ignoresTrace_binary _ _
  | not => exact ignoresTrace_pop fun _ => ignoresTrace_push ignoresTrace_advance
  | inp => exact ignoresTrace_inByte ignoresTrace_finishIn
  | out => exact ignoresTrace_execOut
  | load =>
    exact ignoresTrace_pop fun _ => ignoresTrace_boundsCheck <| ignoresTrace_memRead fun _ =>
      ignoresTrace_push ignoresTrace_advance
  | stor =>
    exact ignoresTrace_pop fun _ => ignoresTrace_pop fun _ => ignoresTrace_boundsCheck <|
      ignoresTrace_memWrite ignoresTrace_advance
  | jmp => exact ignoresTrace_execJmp
  | jz => exact ignoresTrace_execJz
  | push literal =>
    exact ignoresTrace_fetch (a := fun s => s.ip + s.strideWord) (fun _ => rfl) fun _ =>
      ignoresTrace_push (ignoresTrace_next (g := fun s => s.advance.advance) fun _ => rfl)
  | dup => exact ignoresTrace_pop fun _ => ignoresTrace_push (ignoresTrace_push ignoresTrace_advance)

/-! ## Steps -/

/-- The record of a cycle goes out between decoding and executing, so only the trace can show it (R170). -/
theorem ignoresTrace_cycle : IgnoresTrace cycle := by
  refine ignoresTrace_fetch (a := State.ip) (fun _ => rfl) fun _ s => ?_
  calc mapNext State.untraced (exec s.instrAtIp s.traced)
      = exec s.instrAtIp s.traced.untraced := ignoresTrace_exec _ _
    _ = exec s.untraced.instrAtIp s.untraced.traced := by rw [untraced_traced, traced_untraced, untraced_instrAtIp]

theorem ignoresTrace_coreTurn : IgnoresTrace coreTurn := by
  intro s
  by_cases hr : s.rs = .running
  · rw [coreTurn_of_running hr, coreTurn_of_running (s := s.untraced) hr]
    exact ignoresTrace_cycle s
  · rw [coreTurn_of_not_running hr, coreTurn_of_not_running (s := s.untraced) hr]
    rfl

theorem ignoresTrace_loadWord (v : Word) : IgnoresTrace (loadWord v) := by
  intro s
  cases hm : s.inMemory s.ip with
  | false => rw [loadWord_of_not hm, loadWord_of_not (s := s.untraced) hm]; rfl
  | true => rw [loadWord_of_inMemory hm, loadWord_of_inMemory (s := s.untraced) hm]; rfl

/-- A transaction that is accepted only under a condition on other fields than the trace. -/
theorem ignoresTrace_ite {p : State → Prop} [DecidablePred p] {f g : State → Result} (hp : ∀ s, p s.untraced ↔ p s)
    (hf : IgnoresTrace f) (hg : IgnoresTrace g) : IgnoresTrace fun s => if p s then f s else g s := by
  intro s
  by_cases h : p s
  · simpa only [if_pos h, if_pos ((hp s).mpr h)] using hf s
  · simpa only [if_neg h, if_neg fun h' => h ((hp s).mp h')] using hg s

theorem ignoresTrace_hostMove (m : HostMove) : IgnoresTrace (hostMove m) := by
  have stay : IgnoresTrace fun s => .next s := ignoresTrace_next fun _ => rfl
  cases m with
  | idle => exact stay
  | reset => exact ignoresTrace_next fun _ => rfl
  | loadWord v => exact ignoresTrace_ite (fun _ => Iff.rfl) (ignoresTrace_loadWord v) stay
  | start => exact ignoresTrace_ite (fun _ => Iff.rfl) (ignoresTrace_next fun _ => rfl) stay
  | inResp a =>
    exact ignoresTrace_ite (fun _ => Iff.rfl) (f := fun s => finishIn a s.answered)
      (fun s => ignoresTrace_finishIn a s.answered) stay
  | outAck =>
    intro s
    by_cases hq : s.rs = .running ∧ s.outReq ≠ none
    · obtain ⟨hr, ho⟩ := hq
      obtain ⟨b, ho⟩ := Option.ne_none_iff_exists'.mp ho
      rw [hostMove_outAck hr ho, hostMove_outAck (s := s.untraced) hr ho]
      exact ignoresTrace_finishOut b s
    · rw [hostMove_of_misplaced (.inr (.inr ⟨hq, rfl⟩)), hostMove_of_misplaced (s := s.untraced) (.inr (.inr ⟨hq, rfl⟩))]
      rfl

theorem ignoresTrace_turn : IgnoresTrace turn := by
  intro s
  cases hc : s.cmds with
  | nil =>
    rw [turn_of_nil hc, turn_of_nil (s := s.untraced) hc]
    exact ignoresTrace_coreTurn s
  | cons m rest =>
    by_cases hm : m = .idle
    · subst hm
      rw [turn_of_idle hc, turn_of_idle (s := s.untraced) hc]
      exact ignoresTrace_coreTurn _
    · rw [turn_of_move hc hm, turn_of_move (s := s.untraced) hc hm]
      exact ignoresTrace_hostMove m _

/-- Settles O19: a turn ignores the trace, and the check of the parameters does not look at TRACE_ENABLED. -/
theorem tracingChangesNothingElse : Obligations.TracingChangesNothingElse := by
  intro s
  cases hw : s.cfg.wf with
  | false => rw [step_of_not_wf hw, step_of_not_wf (s := s.untraced) hw]; rfl
  | true => rw [step_of_wf hw, step_of_wf (s := s.untraced) hw]; exact ignoresTrace_turn s

end Sys2Proof.Machine
end

