-- ==== Sys2Proof/Proofs/Effects.lean ====
section
/-! PROOFS. Everything an instruction can have done when it answers a next state, as one list of effects. Each frame of
10_state.md, 20_memory.md and 60_exceptions.md is then read off that list. -/

namespace Sys2Proof

/-- The instruction's row of R72 takes the stack `st` to `st'`: as many operands come off and results go on as the row says,
and the entries below stay. -/
def Instr.StackEffect (i : Instr) (st st' : List Word) : Prop :=
  ∃ operands results below, st = operands ++ below ∧ st' = results ++ below ∧
    operands.length = i.pops ∧ results.length = i.pushes

theorem Instr.StackEffect.counts {i : Instr} {st st' : List Word} (h : i.StackEffect st st') :
    i.pops ≤ st.length ∧ st'.drop i.pushes = st.drop i.pops ∧ st'.length + i.pops = st.length + i.pushes := by
  obtain ⟨operands, results, below, rfl, rfl, hpops, hpushes⟩ := h
  refine ⟨?_, ?_, ?_⟩
  · simp [← hpops]
  · simp [← hpops, ← hpushes]
  · simp only [List.length_append]
    omega

namespace Machine

variable {s t : State} {i : Instr}

/-! ## Room on the stack (R33) -/

theorem depthOk_iff (s : State) : s.depthOk = true ↔ ∀ c, s.cfg.stackCapacity = some c → s.stack.length ≤ c := by
  unfold State.depthOk
  cases s.cfg.stackCapacity <;> simp

theorem hasRoom_iff (s : State) : s.hasRoom = true ↔ ∀ c, s.cfg.stackCapacity = some c → s.stack.length < c := by
  unfold State.hasRoom
  cases s.cfg.stackCapacity <;> simp

theorem depthOk_of_hasRoom {st : List Word} {v : Word} (h : ({ s with stack := st } : State).hasRoom = true) :
    ({ s with stack := v :: st } : State).depthOk = true :=
  (depthOk_iff _).mpr fun c hc => (hasRoom_iff _).mp h c hc

theorem depthOk_of_le {st : List Word} (h : s.depthOk = true) (hle : st.length ≤ s.stack.length) :
    ({ s with stack := st } : State).depthOk = true :=
  (depthOk_iff _).mpr fun c hc => hle.trans ((depthOk_iff s).mp h c hc)

/-- After a pop there is room for a push. -/
theorem hasRoom_of_lt {st : List Word} (h : s.depthOk = true) (hlt : st.length < s.stack.length) :
    ({ s with stack := st } : State).hasRoom = true :=
  (hasRoom_iff _).mpr fun c hc => hlt.trans_le ((depthOk_iff s).mp h c hc)

/-- Address 0 has a cell in every machine (R5). -/
theorem inMemory_zero (h : s.cfg.wf = true) : s.inMemory 0 = true :=
  (inMemory_iff_toNat h 0).mpr (memSize_pos h)

/-! ## The effects -/

/-- What the instruction `i` has done when it answers a next state from `s`. -/
inductive Effect (i : Instr) (s : State) : State → Prop
  /-- it has raised a fatal error, of a kind R151 lists for it (R42) -/
  | raised (k : FatalKind) (hunder : k = .stackUnderflow → s.stack.length < i.pops)
      (hlisted : s.cfg.wf = true → FatalRecord.listed ⟨k, .op i.opcode, s.ip⟩ = true) :
      Effect i s (s.raised k (.op i.opcode))
  /-- it has only worked on the stack, and advanced -/
  | computed (st : List Word) (hin : i ≠ .inp) (hout : i ≠ .out) (hslots : i.opcode.slots = 1) (hst : i.StackEffect s.stack st)
      (hdepth : s.depthOk = true → ({ s with stack := st } : State).depthOk = true) :
      Effect i s ({ s with stack := st } : State).advance
  /-- it has pushed its literal, and advanced twice (R140) -/
  | pushed (v : Word) (hi : i = .push v) (hlit : s.inMemory (s.ip + s.strideWord) = true) (hroom : s.hasRoom = true) :
      Effect i s ({ s with stack := v :: s.stack } : State).advance.advance
  /-- it has set the cell at the popped address (R121) -/
  | stored (a v : Word) (rest : List Word) (hi : i = .stor) (hs : s.stack = a :: v :: rest) (hm : s.inMemory a = true) :
      Effect i s (({ s with stack := rest } : State).setCell a v).advance
  /-- it waits for the host's answer (R112) -/
  | heldIn (hi : i = .inp) : Effect i s s.inputPolled.heldAtIn
  /-- it has pushed the host's answer (R113) -/
  | received (r : InAnswer) (hi : i = .inp) (hroom : s.hasRoom = true) :
      Effect i s ({ s.inputPolled.answered with stack := r.word :: s.stack } : State).advance
  /-- it waits for the host to accept (R112) -/
  | heldOut (a : Word) (rest : List Word) (hi : i = .out) (hs : s.stack = a :: rest) :
      Effect i s (s.sinkPolled.heldAtOut (lowByte a))
  /-- it has sent the low byte of the popped top (R114) -/
  | sent (a : Word) (rest : List Word) (hi : i = .out) (hs : s.stack = a :: rest) :
      Effect i s (({ s.sinkPolled with stack := rest } : State).delivered (lowByte a)).advance
  /-- it has halted the machine at its own address (R130) -/
  | halted (rest : List Word) (hi : i = .jmp) (hs : s.stack = s.ip :: rest) :
      Effect i s { s with stack := rest, rs := .halted }
  /-- it has made the popped address `ip` (R130, R131) -/
  | jumped (a : Word) (rest : List Word) (hi : i = .jmp ∨ i = .jz ∧ a = 0#32) (hs : s.stack = a :: rest)
      (ha : s.admits a = true) :
      Effect i s { s with stack := rest, ip := a }

/-- An underflow that R151 lists. -/
theorem Effect.underflow (hlt : s.stack.length < i.pops)
    (hlisted : FatalRecord.listed ⟨.stackUnderflow, .op i.opcode, s.ip⟩ = true) :
    Effect i s (s.raised .stackUnderflow (.op i.opcode)) :=
  .raised _ (fun _ => hlt) fun _ => hlisted

theorem Effect.ofBinary {f : Word → Word → Word} (h : binary i.opcode f s = .next t) (hpops : i.pops = 2)
    (hpushes : i.pushes = 1) (hslots : i.opcode.slots = 1)
    (hlisted : FatalRecord.listed ⟨.stackUnderflow, .op i.opcode, s.ip⟩ = true) : Effect i s t := by
  obtain ⟨hlt, rfl⟩ | ⟨a, b, rest, hs, hroom, rfl⟩ := binary_next h
  · exact .underflow (by rwa [hpops]) hlisted
  · exact .computed _ (by rintro rfl; nomatch hpops) (by rintro rfl; nomatch hpops) hslots
      ⟨[a, b], [f a b], rest, hs, rfl, hpops.symm, hpushes.symm⟩ fun _ => depthOk_of_hasRoom hroom

theorem Effect.ofNot (h : execNot s = .next t) : Effect .not s t := by
  obtain ⟨hs, rfl⟩ | ⟨a, rest, hs, hroom, rfl⟩ := unary_next h
  · exact .underflow (by simp [hs, Instr.pops]) rfl
  · exact .computed _ nofun nofun rfl ⟨[a], [logicalNot a], rest, hs, rfl, rfl, rfl⟩ fun _ => depthOk_of_hasRoom hroom

theorem Effect.ofIn (h : execIn s = .next t) : Effect .inp s t := by
  obtain ⟨-, rfl⟩ | ⟨r, -, hroom, rfl⟩ := execIn_next h
  · exact .heldIn rfl
  · exact .received r rfl hroom

theorem Effect.ofOut (h : execOut s = .next t) : Effect .out s t := by
  obtain ⟨hs, rfl⟩ | ⟨a, rest, hs, ⟨-, rfl⟩ | ⟨-, rfl⟩⟩ := execOut_next h
  · exact .underflow (by simp [hs, Instr.pops]) rfl
  · exact .heldOut a rest rfl hs
  · exact .sent a rest rfl hs

theorem Effect.ofLoad (h : execLoad s = .next t) : Effect .load s t := by
  obtain ⟨hs, rfl⟩ | ⟨a, rest, hs, ⟨-, rfl⟩ | ⟨-, hroom, rfl⟩⟩ := execLoad_next h
  · exact .underflow (by simp [hs, Instr.pops]) rfl
  · exact .raised .boundsViolation nofun fun _ => rfl
  · exact .computed _ nofun nofun rfl ⟨[a], [s.cell a], rest, hs, rfl, rfl, rfl⟩ fun _ => depthOk_of_hasRoom hroom

theorem Effect.ofStor (h : execStor s = .next t) : Effect .stor s t := by
  obtain ⟨hlt, rfl⟩ | ⟨a, v, rest, hs, ⟨-, rfl⟩ | ⟨hm, rfl⟩⟩ := execStor_next h
  · exact .underflow hlt rfl
  · exact .raised .boundsViolation nofun fun _ => rfl
  · exact .stored a v rest rfl hs hm

theorem Effect.ofJmp (h : execJmp s = .next t) : Effect .jmp s t := by
  obtain ⟨hs, rfl⟩ | ⟨a, rest, hs, ⟨-, rfl⟩ | ⟨-, rfl, rfl⟩ | ⟨ha, -, rfl⟩⟩ := execJmp_next h
  · exact .underflow (by simp [hs, Instr.pops]) rfl
  · exact .raised .boundsViolation nofun fun _ => rfl
  · exact .halted rest rfl hs
  · exact .jumped a rest (.inl rfl) hs ha

/-- A taken JZ goes to 0, which every machine admits, so it raises no BoundsViolation (C3). -/
theorem Effect.ofJz (h : execJz s = .next t) : Effect .jz s t := by
  obtain ⟨hs, rfl⟩ | ⟨a, rest, hs, ⟨-, rfl⟩ | ⟨ha, hadm, rfl⟩ | ⟨ha, hadm, rfl⟩⟩ := execJz_next h
  · exact .underflow (by simp [hs, Instr.pops]) rfl
  · exact .computed _ nofun nofun rfl ⟨[a], [], rest, hs, rfl, rfl, rfl⟩ fun hd => depthOk_of_le hd (by simp [hs])
  · exact .jumped a rest (.inr ⟨rfl, ha⟩) hs hadm
  · subst ha
    exact .raised .boundsViolation nofun fun hw => nomatch (admits_of_inMemory (inMemory_zero hw)).symm.trans hadm

theorem Effect.ofPush {v : Word} (h : execPush v s = .next t) : Effect (.push v) s t := by
  obtain ⟨-, rfl⟩ | ⟨hlit, hroom, rfl⟩ := execPush_next h
  · exact .raised .fetchOutOfBounds nofun fun _ => rfl
  · exact .pushed v rfl hlit hroom

theorem Effect.ofDup (h : execDup s = .next t) : Effect .dup s t := by
  obtain ⟨hs, rfl⟩ | ⟨a, rest, hs, hroom, rfl⟩ := execDup_next h
  · exact .underflow (by simp [hs, Instr.pops]) rfl
  · refine .computed _ nofun nofun rfl ⟨[a], [a, a], rest, hs, rfl, rfl, rfl⟩ fun _ => ?_
    rw [← hs]
    exact depthOk_of_hasRoom hroom

/-- The list of effects is complete. -/
theorem exec_effect (h : exec i s = .next t) : Effect i s t := by
  cases i with
  | nop =>
    obtain rfl := execNop_next h
    exact .computed s.stack nofun nofun rfl ⟨[], [], s.stack, rfl, rfl, rfl, rfl⟩ id
  | add | sub | and | or | xor => exact .ofBinary h rfl rfl rfl rfl
  | not => exact .ofNot h
  | inp => exact .ofIn h
  | out => exact .ofOut h
  | load => exact .ofLoad h
  | stor => exact .ofStor h
  | jmp => exact .ofJmp h
  | jz => exact .ofJz h
  | push v => exact .ofPush h
  | dup => exact .ofDup h

end Machine

end Sys2Proof
end

