-- ==== Sys2Proof/Proofs/Frames.lean ====
section
/-! PROOFS. What instructions leave unchanged, and what a raising one leaves (R25, R42, R53, R54, R72), read off the list of
effects. -/

namespace Sys2Proof.Machine

variable {s t : State} {i : Instr}

/-! ## Memory -/

/-- Memory is as before, or STOR has written the one cell at the popped address. -/
theorem Effect.mem (h : Effect i s t) :
    t.mem = s.mem ∨
    i = .stor ∧ t.rs = s.rs ∧ ∃ a v rest, s.stack = a :: v :: rest ∧ s.inMemory a = true ∧
      t.mem = s.mem.write a.toNat v := by
  cases h with
  | stored a v rest hi hs hm => exact .inr ⟨hi, rfl, a, v, rest, hs, hm, rfl⟩
  | _ => exact .inl rfl

/-- Settles O37. -/
theorem onlyStorChangesMemory : Obligations.OnlyStorChangesMemory := by
  intro i s t hi h a
  obtain hm | ⟨rfl, -⟩ := (exec_effect h).mem
  · rw [hm]
  · exact absurd rfl hi

/-- Settles O38: the write is at the popped address, and a STOR that raised has not come to it. -/
theorem storChangesOnlyTheAddressedCell : Obligations.StorChangesOnlyTheAddressedCell := by
  intro s t hr hwf h
  obtain hm | ⟨-, hrs, a, v, rest, hs, -, hm⟩ := (exec_effect h).mem
  · exact ⟨fun _ _ _ _ _ _ => by rw [hm], fun _ _ => by rw [hm], fun _ => hm⟩
  · refine ⟨fun addr value below hs' b hb => ?_, fun hlt => ?_, fun hfatal => ?_⟩
    · obtain ⟨rfl, -⟩ := List.cons_eq_cons.mp (hs.symm.trans hs')
      rw [hm, Memory.read_write_other hwf v hb]
    · simp [hs] at hlt
    · nomatch hfatal.symm.trans (hrs.trans hr)

/-! ## The other fields -/

theorem Effect.fixed (h : Effect i s t) : t.cfg = s.cfg ∧ t.cmds = s.cmds ∧ t.trace = s.trace := by
  cases h <;> exact ⟨rfl, rfl, rfl⟩

theorem Effect.inputPort (h : Effect i s t) (hi : i ≠ .inp) : t.input = s.input ∧ t.inReq = s.inReq := by
  cases h with
  | heldIn hin | received _ hin => exact absurd hin hi
  | _ => exact ⟨rfl, rfl⟩

theorem Effect.outputPort (h : Effect i s t) (hi : i ≠ .out) :
    t.sink = s.sink ∧ t.outReq = s.outReq ∧ t.out = s.out := by
  cases h with
  | heldOut _ _ hout | sent _ _ hout => exact absurd hout hi
  | _ => exact ⟨rfl, rfl, rfl⟩

theorem Effect.record (h : Effect i s t) (hnf : t.rs ≠ .fatal) :
    t.fatal = s.fatal ∧ t.diag = s.diag ∧ t.freeCount = s.freeCount := by
  cases h with
  | raised => exact absurd rfl hnf
  | _ => exact ⟨rfl, rfl, rfl⟩

/-- The run state changes only by raising, and by JMP. -/
theorem Effect.rs (h : Effect i s t) : t.rs = s.rs ∨ t.rs = .fatal ∨ i = .jmp ∧ t.rs = .halted := by
  cases h with
  | raised => exact .inr (.inl rfl)
  | halted _ hi => exact .inr (.inr ⟨hi, rfl⟩)
  | _ => exact .inl rfl

/-- Settles O39, one law for each group of fields. -/
theorem instructionsTouchOnlyTheirOwnState : Obligations.InstructionsTouchOnlyTheirOwnState := by
  intro i s t hr h
  have he : Effect i s t := exec_effect h
  obtain ⟨hcfg, hcmds, htrace⟩ := he.fixed
  refine ⟨hcfg, hcmds, htrace, he.inputPort, he.outputPort, he.record, fun hj hnf => ?_⟩
  obtain hrs | hrs | ⟨hj', -⟩ := he.rs
  · exact hrs.trans hr
  · exact absurd hrs hnf
  · exact absurd hj' hj

/-! ## The stack -/

/-- An instruction raises, is held with its stack and `ip` as they were, or does to the stack what its row says. -/
theorem Effect.stack (h : Effect i s t) :
    t.rs = .fatal ∨
    ((i = .inp ∧ t.inReq = true ∨ i = .out ∧ t.outReq ≠ none) ∧ t.stack = s.stack ∧ t.ip = s.ip) ∨
    i.StackEffect s.stack t.stack := by
  cases h with
  | raised => exact .inl rfl
  | heldIn hi => exact .inr (.inl ⟨.inl ⟨hi, rfl⟩, rfl, rfl⟩)
  | heldOut a rest hi => exact .inr (.inl ⟨.inr ⟨hi, nofun⟩, rfl, rfl⟩)
  | computed st _ _ _ hst => exact .inr (.inr hst)
  | pushed v hi => exact .inr (.inr ⟨[], [v], s.stack, rfl, rfl, by rw [hi]; rfl, by rw [hi]; rfl⟩)
  | received r hi => exact .inr (.inr ⟨[], [r.word], s.stack, rfl, rfl, by rw [hi]; rfl, by rw [hi]; rfl⟩)
  | stored a v rest hi hs => exact .inr (.inr ⟨[a, v], [], rest, hs, rfl, by rw [hi]; rfl, by rw [hi]; rfl⟩)
  | sent a rest hi hs => exact .inr (.inr ⟨[a], [], rest, hs, rfl, by rw [hi]; rfl, by rw [hi]; rfl⟩)
  | halted rest hi hs => exact .inr (.inr ⟨[s.ip], [], rest, hs, rfl, by rw [hi]; rfl, by rw [hi]; rfl⟩)
  | jumped a rest hi hs =>
    refine .inr (.inr ⟨[a], [], rest, hs, rfl, ?_⟩)
    obtain rfl | ⟨rfl, -⟩ := hi <;> exact ⟨rfl, rfl⟩

/-- Settles O40. -/
theorem entriesBelowTheOperandsStay : Obligations.EntriesBelowTheOperandsStay := by
  intro i s t _ h hnf
  obtain hfatal | hheld | hst := (exec_effect h).stack
  · exact absurd hfatal hnf
  · exact .inl hheld
  · exact .inr hst.counts

/-! ## The advance (R25) -/

/-- One stride from a cell is an addition of integers. -/
theorem toInt_add_stride (hw : s.cfg.wf = true) {a : Word} (ha : s.inMemory a = true) :
    (a + s.strideWord).toInt = a.toInt + s.cfg.stride := by
  have hb := memSize_stride_le hw
  have hlt : a.toNat < s.cfg.memSize := (inMemory_iff_toNat hw a).mp ha
  have hsum : (a + s.strideWord).toNat = a.toNat + s.cfg.stride := toNat_add_stride hw (by omega)
  rw [toInt_of_lt (by omega), toInt_of_lt (a := a) (by omega), hsum, Nat.cast_add]

/-- Settles O42: an instruction that moves `ip` without a transfer advances once for each of its slots. -/
theorem advanceNeverWraps : Obligations.AdvanceNeverWraps := by
  intro s t i hw _ hm hjmp hjz h hne
  have once (hslots : i.opcode.slots = 1) :
      (s.ip + s.strideWord).toInt = s.ip.toInt + i.opcode.slots * s.cfg.stride := by
    rw [hslots, Nat.cast_one, one_mul, toInt_add_stride hw hm]
  cases exec_effect h with
  | raised | heldIn | heldOut | halted => exact absurd rfl hne
  | computed _ _ _ hslots => exact once hslots
  | stored _ _ _ hi | received _ hi | sent _ _ hi => exact once (by rw [hi]; rfl)
  | pushed v hi hlit =>
    calc (s.ip + s.strideWord + s.strideWord).toInt
        = s.ip.toInt + s.cfg.stride + s.cfg.stride := by rw [toInt_add_stride hw hlit, toInt_add_stride hw hm]
      _ = s.ip.toInt + 2 * s.cfg.stride := by omega
      _ = s.ip.toInt + i.opcode.slots * s.cfg.stride := by rw [hi]; rfl
  | jumped a rest hi hs =>
    obtain rfl | ⟨rfl, rfl⟩ := hi
    · exact absurd rfl hjmp
    · exact absurd ⟨rfl, by rw [hs]; rfl⟩ hjz

/-! ## Raising (R42) -/

/-- Settles O43: of the effects of a running machine only a raise ends in Fatal. -/
theorem raisingLeavesAPreciseState : Obligations.RaisingLeavesAPreciseState := by
  intro i s t hw hr h hfatal
  cases exec_effect h with
  | raised k _ hlisted => exact ⟨_, rfl, rfl, hlisted hw, rfl⟩
  | halted => nomatch hfatal
  | _ => nomatch hr.symm.trans hfatal

end Sys2Proof.Machine
end

