-- ==== Sys2Proof/Proofs/Steps.lean ====
section
/-! PROOFS. Rules of whole steps: the cycle (R26), its trace record (R170), and what a step can change (R20, R40, R44, R54). -/

namespace Sys2Proof.Machine

variable {s t : State} {i : Instr}

/-! ## The step that is left to the core -/

/-- With no transaction, or after the host's `idle`, the step is the core's turn. -/
theorem step_of_turn {c : List HostMove} (hw : s.cfg.wf = true) (hc : s.cmds = [] ∧ c = [] ∨ s.cmds = .idle :: c) :
    step s = coreTurn { s with cmds := c } := by
  obtain ⟨hc, rfl⟩ | hc := hc
  · rw [step_of_wf hw, turn_of_nil hc, ← hc]
  · rw [step_of_wf hw, turn_of_idle hc]

theorem withLiteral_congr {o : Opcode} (h : o ≠ .push) (v w : Word) : o.withLiteral v = o.withLiteral w := by
  cases o with
  | push => exact absurd rfl h
  | _ => rfl

/-- The instruction at `ip` is what the two slots there decode to. -/
theorem instrAtIp_of_decode {left : List Word}
    (h : decode s.cfg.opcodeMap [s.opcodeWord, s.literalWord] = .ok (i, left)) : s.instrAtIp = i := by
  obtain ⟨hp, v, hv, rfl⟩ | ⟨hp, -, rfl⟩ := decode_ok h
  · obtain ⟨rfl, -⟩ := List.cons_eq_cons.mp hv
    exact instrAtIp_of_push hp
  · exact withLiteral_congr hp _ _

/-- Settles O16. -/
theorem stepRunsTheDecodedInstruction : Obligations.StepRunsTheDecodedInstruction := by
  intro s i left hw hr hlo hhi hdec
  have hi : s.instrAtIp = i := instrAtIp_of_decode hdec
  have hm : s.inMemory s.ip = true := (inMemory_iff s s.ip).mpr ⟨hlo, hhi⟩
  refine ⟨fun hc => hi ▸ step_of_fetched hw hr hc hm, fun rest hc => ?_⟩
  rw [step_of_turn hw (.inr hc), coreTurn_of_running (by exact hr), cycle_of_inMemory (by exact hm), ← hi]
  rfl

/-- A failed opcode fetch raises, before any trace record (R155). -/
theorem step_of_not_fetched {c : List HostMove} (hw : s.cfg.wf = true) (hr : s.rs = .running)
    (hc : s.cmds = [] ∧ c = [] ∨ s.cmds = .idle :: c) (hm : s.inMemory s.ip = false) :
    step s = .next (({ s with cmds := c } : State).raised .fetchOutOfBounds .fetch) := by
  rw [step_of_turn hw hc, coreTurn_of_running (by exact hr), cycle_of_not (by exact hm)]

/-- Settles O20. -/
theorem fetchOutsideMemoryIsFatal : Obligations.FetchOutsideMemoryIsFatal := by
  intro s hw hr hout rest hc
  have hm : s.inMemory s.ip = false := by
    rw [Bool.eq_false_iff, Ne, inMemory_iff]
    omega
  exact ⟨_, ⟨.fetchOutOfBounds, .fetch, s.ip⟩, step_of_not_fetched hw hr hc hm, rfl, rfl, rfl, rfl⟩

/-! ## The trace record -/

theorem traced_of_resuming (h : s.resuming = true) : s.traced = s := by
  simp [State.traced, h]

theorem traced_of_begun (he : s.cfg.traceEnabled = true) (h : s.resuming = false) :
    s.traced = { s with trace := s.trace ++ [s.traceRecord] } := by
  simp [State.traced, he, h]

/-- A cycle goes on where the request of its own IN or OUT stands (R112). -/
theorem resuming_iff (s : State) :
    s.resuming = true ↔ s.opcodeAtIp = .inp ∧ s.inReq = true ∨ s.opcodeAtIp = .out ∧ s.outReq ≠ none := by
  simp [State.resuming, Option.isSome_iff_ne_none]

theorem not_resuming (hin : s.inReq = false) (hout : s.outReq = none) : s.resuming = false := by
  simp [State.resuming, hin, hout]

/-- Settles O17: a cycle that begins emits `traceRecord`, whose fields are those of the cycle. -/
theorem traceRecordHasTheFieldsOfTheCycle : Obligations.TraceRecordHasTheFieldsOfTheCycle := by
  intro s
  refine ⟨traced_of_disabled s, fun h => traced_of_resuming ((resuming_iff s).mpr h), fun he hin hout => ?_⟩
  refine ⟨s.traceRecord, traced_of_begun he (not_resuming hin hout), rfl, rfl, rfl, rfl, ?_, ?_, fun ho => ?_, fun ho => ?_⟩
  · exact List.head?_eq_getElem?
  · rw [← List.getElem?_tail, ← List.head?_eq_getElem?]
    rfl
  · exact if_pos (isOpcodeWord_iff.mpr ho)
  · exact if_neg fun h => Exists.elim (isOpcodeWord_iff.mp h) ho

/-! ## Everything a step can have done -/

/-- What a step from `s` has done when it answers a next state: the core's turn or a transaction of the host (R26, R46). `c`
is what is left of the host's list. -/
inductive StepEffect (s : State) : State → Prop
  /-- nothing: no cycle runs, or the transaction is ignored (R40, R44, D24) -/
  | kept (c : List HostMove) : StepEffect s { s with cmds := c }
  /-- the opcode fetch has failed (R71) -/
  | fetchFailed (c : List HostMove) (hr : s.rs = .running) (hm : s.inMemory s.ip = false) :
      StepEffect s (({ s with cmds := c } : State).raised .fetchOutOfBounds .fetch)
  /-- the instruction at `ip` has been executed, after its trace record -/
  | executed {t : State} (c : List HostMove) (tr : List TraceRecord) (hr : s.rs = .running) (hm : s.inMemory s.ip = true)
      (he : Effect s.instrAtIp { s with cmds := c, trace := tr } t) : StepEffect s t
  /-- `reset` (R180) -/
  | reset (c : List HostMove) (hc : s.cmds = .reset :: c) : StepEffect s ({ s with cmds := c } : State).afterReset
  /-- `load_word` (R181) -/
  | loaded (c : List HostMove) (v : Word) (hc : s.cmds = .loadWord v :: c) (hl : s.rs = .loading)
      (hm : s.inMemory s.ip = true) : StepEffect s (({ s with cmds := c } : State).setCell s.ip v).advance
  /-- `start` (R182) -/
  | started (c : List HostMove) (hc : s.cmds = .start :: c) (hl : s.rs = .loading) :
      StepEffect s ({ s with cmds := c } : State).started
  /-- an `in_resp` that completes a held IN (R112) -/
  | answered (c : List HostMove) (r : InAnswer) (hr : s.rs = .running) (hq : s.inReq = true) (hroom : s.hasRoom = true) :
      StepEffect s ({ s with cmds := c, inReq := false, stack := r.word :: s.stack } : State).advance
  /-- an `out_ack` that completes a held OUT (R112) -/
  | acknowledged (c : List HostMove) (b : Byte) (a : Word) (rest : List Word) (hr : s.rs = .running)
      (hq : s.outReq = some b) (hs : s.stack = a :: rest) :
      StepEffect s (({ s with cmds := c, stack := rest } : State).delivered b).advance
  /-- an `out_ack` to a byte presented over an empty stack (log 14) -/
  | underflowed (c : List HostMove) (b : Byte) (hr : s.rs = .running) (hq : s.outReq = some b) (hs : s.stack = []) :
      StepEffect s (({ s with cmds := c } : State).raised .stackUnderflow (.op .out))

theorem StepEffect.ofCoreTurn {c : List HostMove} (h : coreTurn { s with cmds := c } = .next t) : StepEffect s t := by
  obtain ⟨-, rfl⟩ | ⟨hr, hm, rfl⟩ | ⟨hr, hm, hx⟩ := coreTurn_next h
  · exact .kept (s := s) c
  · exact .fetchFailed (s := s) c hr hm
  · obtain ⟨tr, htr⟩ := traced_eq { s with cmds := c }
    rw [htr] at hx
    exact .executed (s := s) c tr hr hm (exec_effect hx)

theorem StepEffect.ofHostMove {m : HostMove} {c : List HostMove} (hc : s.cmds = m :: c)
    (h : hostMove m { s with cmds := c } = .next t) : StepEffect s t := by
  obtain rfl | ⟨rfl, rfl⟩ | ⟨v, rfl, hl, hm, rfl⟩ | ⟨rfl, hl, rfl⟩ | ⟨a, rfl, hr, hq, hroom, rfl⟩ |
    ⟨b, rfl, hr, hq, ⟨hs, rfl⟩ | ⟨a, rest, hs, rfl⟩⟩ := hostMove_next h
  · exact .kept (s := s) c
  · exact .reset (s := s) c hc
  · exact .loaded (s := s) c v hc hl hm
  · exact .started (s := s) c hc hl
  · exact .answered (s := s) c a hr hq hroom
  · exact .underflowed (s := s) c b hr hq hs
  · exact .acknowledged (s := s) c b a rest hr hq hs

theorem step_effect (h : step s = .next t) : StepEffect s t := by
  obtain ⟨-, ⟨c, -, hcore⟩ | ⟨m, c, hc, -, hmove⟩⟩ := step_next h
  · exact .ofCoreTurn hcore
  · exact .ofHostMove hc hmove

/-! ## What a step can change -/

theorem opcodeAtIp_of_instr (h : s.instrAtIp = i) : s.opcodeAtIp = i.opcode := by
  rw [← h, opcode_instrAtIp]

/-- Settles O53: no effect touches the parameters. -/
theorem parametersNeverChange : Obligations.ParametersNeverChange := by
  intro s t h
  cases step_effect h with
  | executed c tr _ _ he => exact he.fixed.1
  | _ => rfl

/-- Settles O48. -/
theorem runStateTransitions : Obligations.RunStateTransitions := by
  intro s t h
  cases step_effect h with
  | kept | loaded | answered | acknowledged => exact .inl rfl
  | reset c hc => exact .inr (.inl ⟨rfl, by rw [hc]; rfl⟩)
  | started c hc hl => exact .inr (.inr (.inl ⟨hl, rfl, by rw [hc]; rfl⟩))
  | fetchFailed _ hr | underflowed _ _ hr => exact .inr (.inr (.inr ⟨hr, .inr rfl⟩))
  | executed c tr hr _ he =>
    obtain hrs | hrs | ⟨-, hrs⟩ := he.rs
    · exact .inl hrs
    · exact .inr (.inr (.inr ⟨hr, .inr hrs⟩))
    · exact .inr (.inr (.inr ⟨hr, .inl hrs⟩))

/-- After a write, only the written cell can read differently. -/
theorem Memory.eq_of_read_write_ne {m : Memory} (hm : m.wf = true) {a b : Nat} {v : Word}
    (h : (m.write a v).read b ≠ m.read b) : b = a :=
  of_not_not fun hne => h (Memory.read_write_other hm v hne)

/-- Settles O54: `reset` clears memory, and `load_word` and STOR write one cell. -/
theorem memoryChangesOnlyByStorLoadAndReset : Obligations.MemoryChangesOnlyByStorLoadAndReset := by
  intro s t a hwf h hne
  cases step_effect h with
  | kept | fetchFailed | started | answered | acknowledged | underflowed => exact absurd rfl hne
  | reset c hc => exact .inl (by rw [hc]; rfl)
  | loaded c v hc hl => exact .inr (.inl ⟨hl, Memory.eq_of_read_write_ne hwf hne, v, by rw [hc]; rfl⟩)
  | executed c tr hr _ he =>
    obtain hm | ⟨hi, -, addr, v, rest, hs, -, hm⟩ := he.mem
    · exact absurd (by rw [hm]) hne
    · rw [hm] at hne
      exact .inr (.inr ⟨hr, opcodeAtIp_of_instr hi, addr, v :: rest, hs, Memory.eq_of_read_write_ne hwf hne⟩)

/-- What an instruction sends: nothing, or OUT the low byte of the popped top. -/
theorem Effect.out (h : Effect i s t) :
    t.out = s.out ∨ i = .out ∧ ∃ a rest, s.stack = a :: rest ∧ t.stack = rest ∧ t.out = s.out ++ [lowByte a] := by
  cases h with
  | sent a rest hi hs => exact .inr ⟨hi, a, rest, hs, rfl, rfl⟩
  | _ => exact .inl rfl

/-- Settles O55: the byte that an `out_ack` delivers is, by the invariant, the low byte of the top. -/
theorem outputGrowsByOneByteOfAnOut : Obligations.OutputGrowsByOneByteOfAnOut := by
  intro s t hinv h
  cases step_effect h with
  | kept | fetchFailed | reset | loaded | started | answered | underflowed => exact .inl rfl
  | acknowledged c b a rest hr hq hs =>
    obtain ⟨-, -, hop, a', rest', hs', rfl⟩ := hinv.heldOut b hq
    obtain ⟨rfl, rfl⟩ := List.cons_eq_cons.mp (hs.symm.trans hs')
    exact .inr ⟨hr, hop, a, rest, hs, rfl, rfl⟩
  | executed c tr hr _ he =>
    obtain hout | ⟨hi, a, rest, hs, hst, hout⟩ := he.out
    · exact .inl hout
    · exact .inr ⟨hr, opcodeAtIp_of_instr hi, a, rest, hs, hst, hout⟩

/-! ## Halted and Fatal (R44) -/

/-- In Halted and Fatal every transaction but `reset` is misplaced (D24). -/
theorem step_of_absorbing (hw : s.cfg.wf = true) (ha : s.rs = .halted ∨ s.rs = .fatal) (hr : s.cmds.head? ≠ some .reset) :
    step s = .next { s with cmds := s.cmds.tail } := by
  have hl : s.rs ≠ .loading := by rintro h; simp [h] at ha
  have hrun : s.rs ≠ .running := by rintro h; simp [h] at ha
  cases hc : s.cmds with
  | nil => rw [step_of_turn hw (.inl ⟨hc, rfl⟩), coreTurn_of_not_running (by exact hrun)]; rfl
  | cons m c =>
    by_cases hi : m = .idle
    · subst hi
      rw [step_of_turn hw (.inr hc), coreTurn_of_not_running (by exact hrun)]
      rfl
    · rw [hc] at hr
      exact step_of_misplaced hw hc (misplaced_of_not_loading hl hi (fun h => hr (congrArg some h))
        (fun h => hrun h.1.1) fun h => hrun h.1.1)

/-- A run in Halted or Fatal only takes transactions off the host's list. -/
theorem runSteps_of_absorbing (n : Nat) (s : State) (hw : s.cfg.wf = true) (ha : s.rs = .halted ∨ s.rs = .fatal)
    (hr : .reset ∉ s.cmds.take n) : runSteps n s = .next { s with cmds := s.cmds.drop n } := by
  induction n generalizing s with
  | zero => rfl
  | succ n ih =>
    have hsplit : s.cmds.head? ≠ some .reset ∧ .reset ∉ s.cmds.tail.take n := by
      cases hc : s.cmds with
      | nil => simp
      | cons m c =>
        rw [hc, List.take_succ_cons, List.mem_cons, not_or] at hr
        exact ⟨fun h => hr.1 (Option.some.inj h).symm, hr.2⟩
    rw [runSteps_succ_of_next (step_of_absorbing hw ha hsplit.1), ih { s with cmds := s.cmds.tail } hw ha hsplit.2,
      List.drop_tail]

/-- Settles O47. -/
theorem haltedAndFatalAreAbsorbing : Obligations.HaltedAndFatalAreAbsorbing := by
  intro s n hw ha hr
  exact ⟨_, runSteps_of_absorbing n s hw ha hr, ⟨rfl, rfl, rfl, rfl, rfl⟩, rfl, rfl, rfl, rfl, rfl⟩

end Sys2Proof.Machine
end

