-- ==== Sys2Proof/Proofs/Invariant.lean ====
section
/-! PROOFS. The invariant of the machine: it holds right after reset, every step keeps it, and it gives the status outputs
their meaning (R47). -/

namespace Sys2Proof.Machine

variable {s t : State} {i : Instr}

/-- Settles O51. -/
theorem invariantHoldsAtReset : Obligations.InvariantHoldsAtReset where
  cfgWf := by decide
  memWf := rfl
  memWithin := rfl
  ipLow := by decide
  ipHigh := by decide
  depth := fun _ => rfl
  loadingStack := fun _ => rfl
  fatalIff := by simp [State.reset]
  fatalRecord := nofun
  haltedAtJmp := nofun
  heldIn := nofun
  heldOut := nofun

/-! ## What the invariant says of the requests -/

/-- No request stands away from a running IN. -/
theorem State.Inv.no_inReq (hi : s.Inv) (h : s.rs ≠ .running ∨ s.inMemory s.ip = false ∨ s.opcodeAtIp ≠ .inp) :
    s.inReq = false := by
  by_contra hq
  obtain ⟨hr, hm, ho⟩ := hi.heldIn (by simpa using hq)
  simp [hr, hm, ho] at h

/-- No byte is presented away from a running OUT with an operand. -/
theorem State.Inv.no_outReq (hi : s.Inv)
    (h : s.rs ≠ .running ∨ s.inMemory s.ip = false ∨ s.opcodeAtIp ≠ .out ∨ s.stack = []) : s.outReq = none := by
  by_contra hq
  obtain ⟨b, hb⟩ := Option.ne_none_iff_exists'.mp hq
  obtain ⟨hr, hm, ho, a, rest, hs, -⟩ := hi.heldOut b hb
  simp [hr, hm, ho, hs] at h

theorem State.Inv.no_record (hi : s.Inv) (h : s.rs ≠ .fatal) : s.fatal = none := by
  simpa using mt hi.fatalIff.mp h

/-! ## Changes that keep it -/

/-- The host's list and the trace are not looked at. -/
theorem State.Inv.withLists (hi : s.Inv) (c : List HostMove) (tr : List TraceRecord) :
    ({ s with cmds := c, trace := tr } : State).Inv :=
  ⟨hi.cfgWf, hi.memWf, hi.memWithin, hi.ipLow, hi.ipHigh, hi.depth, hi.loadingStack, hi.fatalIff, hi.fatalRecord,
    hi.haltedAtJmp, hi.heldIn, hi.heldOut⟩

/-- `ip` is no negative Word and at most one slot past Memory (R24, R25). -/
def State.IpOk (s : State) : Prop := 0 ≤ s.ip.toInt ∧ s.ip.toInt < s.cfg.memSize + s.cfg.stride

/-- Memory is in canonical form and every listed cell exists. -/
def State.MemOk (s : State) : Prop := s.mem.wf = true ∧ s.mem.within s.cfg.memSize = true

theorem State.Inv.memOk (hi : s.Inv) : s.MemOk := ⟨hi.memWf, hi.memWithin⟩

/-- A machine that is not yet, or still, running, with no request standing, needs only its own pieces in order. -/
theorem State.Inv.ofLive (hcfg : t.cfg.wf = true) (hmem : t.MemOk) (hip : t.IpOk) (hd : t.depthOk = true)
    (hr : t.rs = .running ∨ t.rs = .loading ∧ t.stack = []) (hf : t.fatal = none) (hin : t.inReq = false)
    (hout : t.outReq = none) : t.Inv where
  cfgWf := hcfg
  memWf := hmem.1
  memWithin := hmem.2
  ipLow := hip.1
  ipHigh := hip.2
  depth := fun _ => hd
  loadingStack := fun hl => by
    obtain hr | ⟨-, hs⟩ := hr
    · nomatch hr.symm.trans hl
    · exact hs
  fatalIff := by
    obtain hr | ⟨hr, -⟩ := hr <;> simp [hf, hr]
  fatalRecord := fun r hr' => nomatch hf.symm.trans hr'
  haltedAtJmp := fun hh => by
    obtain hr | ⟨hr, -⟩ := hr <;> nomatch hr.symm.trans hh
  heldIn := fun hq => nomatch hin.symm.trans hq
  heldOut := fun b hq => nomatch hout.symm.trans hq

/-- A write to a cell that exists keeps memory in order. -/
theorem State.MemOk.setCell (hw : s.cfg.wf = true) (hm : s.MemOk) {a : Word} (ha : s.inMemory a = true) (v : Word) :
    (s.setCell a v).MemOk :=
  ⟨Memory.wf_write hm.1 _ v, Memory.within_write hm.2 ((inMemory_iff_toNat hw a).mp ha) v⟩

/-- One slot on from a cell, `ip` is at most one slot past Memory. -/
theorem ipOk_advance (hw : s.cfg.wf = true) (hm : s.inMemory s.ip = true) : s.advance.IpOk := by
  obtain ⟨hlo, hhi⟩ := (inMemory_iff s s.ip).mp hm
  have hsum : s.advance.ip.toInt = s.ip.toInt + s.cfg.stride := toInt_add_stride hw hm
  constructor
  · omega
  · rw [advance_cfg]
    omega

theorem ipOk_of_inMemory (hw : s.cfg.wf = true) (hm : s.inMemory s.ip = true) : s.IpOk := by
  have hpos := stride_pos hw
  obtain ⟨hlo, hhi⟩ := (inMemory_iff s s.ip).mp hm
  exact ⟨hlo, by omega⟩

theorem ipOk_of_admits (hw : s.cfg.wf = true) (ha : s.admits s.ip = true) : s.IpOk := by
  cases hm : s.inMemory s.ip with
  | true => exact ipOk_of_inMemory hw hm
  | false =>
    have hpos := stride_pos hw
    obtain ⟨-, hn⟩ := admitted_without_cell ha hm
    constructor <;> omega

/-- Raising where no request stands keeps the invariant, with a record that R151 lists. -/
theorem State.Inv.raised (hi : s.Inv) {k : FatalKind} {op : FatalOp} (hl : FatalRecord.listed ⟨k, op, s.ip⟩ = true)
    (hin : s.inReq = false) (hout : s.outReq = none) : (s.raised k op).Inv where
  cfgWf := hi.cfgWf
  memWf := hi.memWf
  memWithin := hi.memWithin
  ipLow := hi.ipLow
  ipHigh := hi.ipHigh
  depth := fun h => absurd rfl h
  loadingStack := nofun
  fatalIff := by simp
  fatalRecord := fun r hr => by
    obtain rfl := Option.some.inj hr
    exact ⟨rfl, hl⟩
  haltedAtJmp := nofun
  heldIn := fun hq => nomatch hin.symm.trans hq
  heldOut := fun b hq => nomatch hout.symm.trans hq

/-- The requests and the host's feeds may change as long as each request stands at its own instruction (R112). -/
theorem State.Inv.withPorts (hi : s.Inv) (f : InFeed) (k : OutFeed) {q : Bool} {o : Option Byte}
    (hin : q = true → s.rs = .running ∧ s.inMemory s.ip = true ∧ s.opcodeAtIp = .inp)
    (hout : ∀ b, o = some b → s.rs = .running ∧ s.inMemory s.ip = true ∧ s.opcodeAtIp = .out ∧
      ∃ a rest, s.stack = a :: rest ∧ b = lowByte a) :
    ({ s with input := f, sink := k, inReq := q, outReq := o } : State).Inv :=
  ⟨hi.cfgWf, hi.memWf, hi.memWithin, hi.ipLow, hi.ipHigh, hi.depth, hi.loadingStack, hi.fatalIff, hi.fatalRecord,
    hi.haltedAtJmp, hin, hout⟩

/-- Halting at a JMP where no request stands. -/
theorem State.Inv.halted (hi : s.Inv) {st : List Word} (hr : s.rs = .running) (hm : s.inMemory s.ip = true)
    (ho : s.opcodeAtIp = .jmp) (hle : st.length ≤ s.stack.length) (hin : s.inReq = false) (hout : s.outReq = none) :
    ({ s with stack := st, rs := .halted } : State).Inv where
  cfgWf := hi.cfgWf
  memWf := hi.memWf
  memWithin := hi.memWithin
  ipLow := hi.ipLow
  ipHigh := hi.ipHigh
  depth := fun _ => depthOk_of_le (hi.depth (by simp [hr])) hle
  loadingStack := nofun
  fatalIff := by simp [hi.no_record (by simp [hr])]
  fatalRecord := hi.fatalRecord
  haltedAtJmp := fun _ => ⟨hm, ho⟩
  heldIn := fun hq => nomatch hin.symm.trans hq
  heldOut := fun b hq => nomatch hout.symm.trans hq

/-- Going on at the next instruction, with no request standing. -/
theorem State.Inv.resumed (hi : s.Inv) (hr : s.rs = .running) (hcfg : t.cfg = s.cfg) (hmem : t.MemOk) (hip : t.IpOk)
    (hd : t.depthOk = true) (hrs : t.rs = s.rs) (hf : t.fatal = s.fatal) (hin : t.inReq = false)
    (hout : t.outReq = none) : t.Inv :=
  .ofLive (hcfg ▸ hi.cfgWf) hmem hip hd (.inl (hrs.trans hr)) (hf.trans (hi.no_record (by simp [hr]))) hin hout

/-! ## Instructions keep it -/

theorem eq_inp_of_opcode (h : i.opcode = .inp) : i = .inp := by
  cases i with
  | inp => rfl
  | _ => nomatch h

theorem eq_out_of_opcode (h : i.opcode = .out) : i = .out := by
  cases i with
  | out => rfl
  | _ => nomatch h

theorem State.Inv.no_inReq_at (hi : s.Inv) (ho : s.opcodeAtIp = i.opcode) (h : i ≠ .inp) : s.inReq = false :=
  hi.no_inReq (.inr (.inr fun h' => h (eq_inp_of_opcode (ho ▸ h'))))

theorem State.Inv.no_outReq_at (hi : s.Inv) (ho : s.opcodeAtIp = i.opcode) (h : i ≠ .out) : s.outReq = none :=
  hi.no_outReq (.inr (.inr (.inl fun h' => h (eq_out_of_opcode (ho ▸ h')))))

/-- OUT can raise only StackUnderflow (R151). -/
theorem underflow_of_listed_out {k : FatalKind} {ip : Word} (h : FatalRecord.listed ⟨k, .op .out, ip⟩ = true) :
    k = .stackUnderflow := by
  cases k with
  | stackUnderflow => rfl
  | _ => nomatch h

/-- IN never raises. -/
theorem not_listed_inp (k : FatalKind) (ip : Word) : FatalRecord.listed ⟨k, .op .inp, ip⟩ = false := by
  cases k <;> rfl

/-- No request stands where an instruction raises: IN does not raise, and OUT only on an empty stack. -/
theorem State.Inv.no_request_of_raise (hi : s.Inv) {k : FatalKind} (ho : s.opcodeAtIp = i.opcode)
    (hunder : k = .stackUnderflow → s.stack.length < i.pops)
    (hl : FatalRecord.listed ⟨k, .op i.opcode, s.ip⟩ = true) : s.inReq = false ∧ s.outReq = none := by
  constructor
  · refine hi.no_inReq_at ho ?_
    rintro rfl
    nomatch (not_listed_inp k s.ip).symm.trans hl
  · by_cases h : i = .out
    · subst h
      have hlt : s.stack.length < 1 := hunder (underflow_of_listed_out hl)
      exact hi.no_outReq (.inr (.inr (.inr (List.length_eq_zero_iff.mp (Nat.lt_one_iff.mp hlt)))))
    · exact hi.no_outReq_at ho h

/-- Every effect of the instruction at `ip` of a running machine keeps the invariant. -/
theorem Effect.inv (h : Effect i s t) (hi : s.Inv) (hr : s.rs = .running) (hm : s.inMemory s.ip = true)
    (ho : s.opcodeAtIp = i.opcode) : t.Inv := by
  have hw := hi.cfgWf
  have hd : s.depthOk = true := hi.depth (by simp [hr])
  have hnext : s.advance.IpOk := ipOk_advance hw hm
  cases h with
  | raised k hunder hlisted =>
    obtain ⟨hin, hout⟩ := hi.no_request_of_raise ho hunder (hlisted hw)
    exact hi.raised (hlisted hw) hin hout
  | computed st hin hout _ _ hdepth =>
    exact hi.resumed hr rfl hi.memOk hnext (hdepth hd) rfl rfl (hi.no_inReq_at ho hin) (hi.no_outReq_at ho hout)
  | pushed v hpush hlit hroom =>
    subst hpush
    exact hi.resumed hr rfl hi.memOk (ipOk_advance (s := s.advance) hw hlit) (depthOk_of_hasRoom hroom) rfl rfl
      (hi.no_inReq_at ho nofun) (hi.no_outReq_at ho nofun)
  | stored a v rest hstor hs hcell =>
    subst hstor
    exact hi.resumed hr rfl (hi.memOk.setCell hw hcell v) hnext (depthOk_of_le (s := s) hd (by simp [hs]; omega)) rfl rfl
      (hi.no_inReq_at ho nofun) (hi.no_outReq_at ho nofun)
  | heldIn hinp =>
    subst hinp
    exact hi.withPorts _ s.sink (fun _ => ⟨hr, hm, ho⟩) hi.heldOut
  | received r hinp hroom =>
    subst hinp
    exact hi.resumed hr rfl hi.memOk hnext (depthOk_of_hasRoom hroom) rfl rfl rfl (hi.no_outReq_at ho nofun)
  | heldOut a rest hout hs =>
    subst hout
    refine hi.withPorts s.input _ hi.heldIn fun b hb => ⟨hr, hm, ho, a, rest, hs, ?_⟩
    exact (Option.some.inj hb).symm
  | sent a rest hout hs =>
    subst hout
    exact hi.resumed hr rfl hi.memOk hnext (depthOk_of_le (s := s) hd (by simp [hs])) rfl rfl
      (hi.no_inReq_at ho nofun) rfl
  | halted rest hjmp hs =>
    subst hjmp
    exact hi.halted hr hm ho (by simp [hs]) (hi.no_inReq_at ho nofun) (hi.no_outReq_at ho nofun)
  | jumped a rest hj hs ha =>
    have hio : i ≠ .inp ∧ i ≠ .out := by obtain rfl | ⟨rfl, -⟩ := hj <;> exact ⟨nofun, nofun⟩
    exact hi.resumed hr rfl hi.memOk (ipOk_of_admits (s := { s with stack := rest, ip := a }) hw ha)
      (depthOk_of_le hd (by simp [hs])) rfl rfl (hi.no_inReq_at ho hio.1) (hi.no_outReq_at ho hio.2)

/-! ## Steps keep it -/

theorem depthOk_of_empty (h : s.stack = []) : s.depthOk = true :=
  (depthOk_iff s).mpr fun c _ => by simp [h]

theorem ipOk_of_zero (hw : s.cfg.wf = true) (h : s.ip = 0) : s.IpOk :=
  ipOk_of_inMemory hw (h ▸ inMemory_zero hw)

theorem StepEffect.inv (h : StepEffect s t) (hi : s.Inv) : t.Inv := by
  have hw := hi.cfgWf
  cases h with
  | kept c => exact hi.withLists c s.trace
  | fetchFailed c hr hm =>
    exact (hi.withLists c s.trace).raised rfl (hi.no_inReq (.inr (.inl hm))) (hi.no_outReq (.inr (.inl hm)))
  | executed c tr hr hm he => exact he.inv (hi.withLists c tr) hr hm (opcode_instrAtIp s).symm
  | reset c hc =>
    exact .ofLive hw ⟨rfl, rfl⟩ (ipOk_of_zero hw rfl) (depthOk_of_empty rfl) (.inr ⟨rfl, rfl⟩) rfl rfl rfl
  | loaded c v hc hl hm =>
    have hs : s.stack = [] := hi.loadingStack hl
    exact .ofLive hw (hi.memOk.setCell hw hm v) (ipOk_advance hw hm) (depthOk_of_empty hs) (.inr ⟨hl, hs⟩)
      (hi.no_record (by simp [hl])) (hi.no_inReq (.inl (by simp [hl]))) (hi.no_outReq (.inl (by simp [hl])))
  | started c hc hl =>
    exact .ofLive hw hi.memOk (ipOk_of_zero hw rfl) (depthOk_of_empty (hi.loadingStack hl)) (.inl rfl)
      (hi.no_record (by simp [hl])) (hi.no_inReq (.inl (by simp [hl]))) (hi.no_outReq (.inl (by simp [hl])))
  | answered c r hr hq hroom =>
    obtain ⟨-, hm, ho⟩ := hi.heldIn hq
    exact hi.resumed hr rfl hi.memOk (ipOk_advance hw hm) (depthOk_of_hasRoom hroom) rfl rfl rfl
      (hi.no_outReq_at (s := s) (i := .inp) ho nofun)
  | acknowledged c b a rest hr hq hs =>
    obtain ⟨-, hm, ho, -⟩ := hi.heldOut b hq
    exact hi.resumed hr rfl hi.memOk (ipOk_advance hw hm)
      (depthOk_of_le (s := s) (hi.depth (by simp [hr])) (by simp [hs])) rfl rfl
      (hi.no_inReq_at (s := s) (i := .out) ho nofun) rfl
  | underflowed c b hr hq hs =>
    obtain ⟨-, -, -, a, rest, hs', -⟩ := hi.heldOut b hq
    nomatch hs.symm.trans hs'

/-- Settles O52: each effect of a step keeps the invariant. -/
theorem everyStepKeepsTheInvariant : Obligations.EveryStepKeepsTheInvariant :=
  fun _ _ hi h => (step_effect h).inv hi

/-! ## The status outputs -/

/-- Settles O46. -/
theorem statusShowsTheFatalRecord : Obligations.StatusShowsTheFatalRecord := by
  intro s hi
  refine ⟨fun hr => ?_, fun hr => ?_⟩
  · simp [State.fatalKind, State.fatalOpcode, State.fatalIp, hi.no_record hr]
  · obtain ⟨r, hf⟩ := Option.isSome_iff_exists.mp (hi.fatalIff.mpr hr)
    obtain ⟨hip, -⟩ := hi.fatalRecord r hf
    refine ⟨r, hf, exitStatus_of_fatal hr, by simp [State.fatalOpcode, hf], by simp [State.fatalIp, hf, hip], ?_⟩
    simp only [State.fatalKind, hf, Option.map_some]
    cases r.kind with
    | boundsViolation => exact .inl ⟨rfl, rfl⟩
    | stackUnderflow => exact .inr (.inl ⟨rfl, rfl⟩)
    | fetchOutOfBounds => exact .inr (.inr ⟨rfl, rfl⟩)

end Sys2Proof.Machine
end

