-- ==== Sys2Proof/Proofs/Instructions.lean ====
section
/-! PROOFS. Each instruction where it completes, with its whole next state, and where it raises or is refused (40_alu.md to
44_stack.md). -/

namespace Sys2Proof.Machine

variable {s t : State} {a b v : Word} {rest : List Word}

theorem raises_of_next {o : Result} {k : FatalKind} {op : FatalOp} (h : o = .next (s.raised k op)) : Raises k op o :=
  ⟨_, _, h, rfl, rfl, rfl, rfl, rfl⟩

/-- An instruction with one operand raises on an empty stack (R31). -/
theorem exec_raises_of_empty {i : Instr} (hi : i.pops = 1) (hs : s.stack = []) :
    Raises .stackUnderflow (.op i.opcode) (exec i s) := by
  refine raises_of_next (s := s) ?_
  cases i with
  | not => rw [exec, execNot, unary, pop_of_nil hs]; rfl
  | out => rw [exec, execOut, pop_of_nil hs]; rfl
  | load => rw [exec, execLoad, pop_of_nil hs]; rfl
  | jmp => rw [exec, execJmp, pop_of_nil hs]; rfl
  | jz => rw [exec, execJz, pop_of_nil hs]; rfl
  | dup => rw [exec, execDup, pop_of_nil hs]; rfl
  | _ => nomatch hi

/-- Two pops from fewer than two entries raise, whatever was popped first. -/
theorem pop_pop_raises {o : Opcode} {f : Word → Word → State → Result} (hlt : s.stack.length < 2) :
    Raises .stackUnderflow (.op o) (pop o s fun a s => pop o s (f a)) := by
  cases hs : s.stack with
  | nil => exact raises_of_next (pop_of_nil hs)
  | cons a rest =>
    have hrest : rest = [] := by
      rw [hs, List.length_cons] at hlt
      exact List.length_eq_zero_iff.mp (by omega)
    rw [pop_of_cons hs]
    exact raises_of_next (pop_of_nil hrest)

theorem hasRoom_of_popped (hs : s.stack = a :: rest) (hd : s.depthOk = true) :
    ({ s with stack := rest } : State).hasRoom = true :=
  hasRoom_of_lt hd (by simp [hs])

/-! ## NOP, arithmetic and logic -/

/-- Settles O22. -/
theorem nopOnlyAdvances : Obligations.NopOnlyAdvances := by
  refine ⟨fun s => rfl, fun m v hm => ?_, fun m w v hw => ?_⟩
  · have hnop : decodeOpcode m 0 = .nop := by
      simpa [OpcodeMap.value, OpcodeMap.wf_nop hm] using decodeOpcode_value hm .nop
    rw [decodeSlots, hnop]
    rfl
  · rw [decodeSlots, decodeOpcode_of_unrecognized hw]
    rfl

theorem binary_of_cons {o : Opcode} (f : Word → Word → Word) (hs : s.stack = a :: b :: rest) (hd : s.depthOk = true) :
    binary o f s = .next ({ s with stack := f a b :: rest } : State).advance := by
  have hroom : ({ s with stack := rest } : State).hasRoom = true := hasRoom_of_lt hd (by simp [hs])
  rw [binary, pop_of_cons hs, pop_of_cons rfl, push_of_room hroom]

theorem unary_of_cons {o : Opcode} (f : Word → Word) (hs : s.stack = a :: rest) (hd : s.depthOk = true) :
    unary o f s = .next ({ s with stack := f a :: rest } : State).advance := by
  rw [unary, pop_of_cons hs, push_of_room (hasRoom_of_popped hs hd)]

theorem wrap32_add (a b : Word) : wrap32 (a.toInt + b.toInt) = a + b := by
  rw [wrap32, BitVec.ofInt_add, BitVec.ofInt_toInt, BitVec.ofInt_toInt]

theorem wrap32_sub (a b : Word) : wrap32 (a.toInt - b.toInt) = a - b := by
  apply BitVec.eq_of_toInt_eq
  rw [wrap32, BitVec.toInt_ofInt, BitVec.toInt_sub]

/-- Settles O23: 32-bit sums and differences are the integer ones wrapped (R99). -/
theorem addAndSubWrapModuloTwoToThe32 : Obligations.AddAndSubWrapModuloTwoToThe32 := by
  intro s
  refine ⟨fun a b rest hs hd => ⟨?_, ?_⟩, fun hlt => ⟨pop_pop_raises hlt, pop_pop_raises hlt⟩⟩
  · exact (binary_of_cons _ hs hd).trans (by rw [wrap32_add]; rfl)
  · exact (binary_of_cons _ hs hd).trans (by rw [wrap32_sub]; rfl)

/-- Settles O24. -/
theorem andOrXorAreBitwise : Obligations.AndOrXorAreBitwise := fun _ =>
  ⟨fun _ _ _ hs hd => ⟨binary_of_cons _ hs hd, binary_of_cons _ hs hd, binary_of_cons _ hs hd⟩,
    fun hlt => ⟨pop_pop_raises hlt, pop_pop_raises hlt, pop_pop_raises hlt⟩⟩

theorem logicalNot_of_ne (h : a ≠ 0) : logicalNot a = 0 :=
  if_neg fun hz => h (by simpa [isZero] using hz)

/-- Settles O25. -/
theorem notIsLogical : Obligations.NotIsLogical := by
  refine fun s => ⟨fun rest hs hd => unary_of_cons _ hs hd, fun a rest hs ha hd => ?_, exec_raises_of_empty rfl⟩
  exact (unary_of_cons _ hs hd).trans (by rw [logicalNot_of_ne ha]; rfl)

/-! ## Byte input and output -/

/-- A byte is pushed zero-extended (D9). -/
theorem word_byte_toInt (b : Byte) : (InAnswer.byte b).word.toInt = b.toNat := by
  have hb := b.isLt
  have hnat : (InAnswer.byte b).word.toNat = b.toNat := by
    simp only [InAnswer.word, zext32, BitVec.toNat_setWidth]
    omega
  rw [toInt_of_lt (by omega), hnat]

theorem word_eos_toInt : InAnswer.eos.word.toInt = -1 := rfl

theorem finishIn_of_room (r : InAnswer) (h : s.hasRoom = true) :
    finishIn r s = .next ({ s with stack := r.word :: s.stack } : State).advance :=
  push_of_room h

theorem finishIn_of_full (r : InAnswer) (h : s.hasRoom = false) : finishIn r s = .refused .resourceExhausted :=
  push_of_full h

theorem finishOut_of_cons (b : Byte) (hs : s.stack = a :: rest) :
    finishOut b s = .next (({ s with stack := rest } : State).delivered b).advance :=
  pop_of_cons hs

/-- Settles O26: the poll is answered or it is not, and an answer is pushed or refused. -/
theorem inPushesTheByteOrMinusOne : Obligations.InPushesTheByteOrMinusOne := by
  intro s
  have push (r : InAnswer) (hi : s.input.take.1 = some r) (hroom : s.hasRoom = true) :
      exec .inp s = .next { s with
        stack := r.word :: s.stack, ip := s.ip + BitVec.ofNat 32 s.cfg.stride, input := s.input.take.2, inReq := false } :=
    (inByte_of_some hi).trans (finishIn_of_room r (by exact hroom))
  refine ⟨fun b hi hroom => ⟨_, word_byte_toInt b, push _ hi hroom⟩, fun hi hroom => ⟨_, word_eos_toInt, push _ hi hroom⟩,
    fun hi hfull => ?_, fun hi => inByte_of_none hi⟩
  obtain ⟨r, hr⟩ := Option.ne_none_iff_exists'.mp hi
  exact (inByte_of_some hr).trans (finishIn_of_full r (by exact hfull))

theorem lowByte_toNat (a : Word) : (lowByte a).toNat = a.toNat % 256 := BitVec.toNat_setWidth ..

theorem execOut_of_accepted (hs : s.stack = a :: rest) (hk : s.sink.take.1 = true) :
    execOut s = .next (({ s.sinkPolled with stack := rest } : State).delivered (lowByte a)).advance := by
  rw [execOut, pop_of_cons hs, outByte_of_true (by exact hk)]
  rfl

theorem execOut_of_held (hs : s.stack = a :: rest) (hk : s.sink.take.1 = false) :
    execOut s = .next (s.sinkPolled.heldAtOut (lowByte a)) := by
  rw [execOut, pop_of_cons hs, outByte_of_false (by exact hk)]

theorem execOut_of_empty (hs : s.stack = []) : execOut s = .next (s.raised .stackUnderflow (.op .out)) := pop_of_nil hs

/-- Settles O28. -/
theorem outSendsTheLowByte : Obligations.OutSendsTheLowByte := by
  refine fun s => ⟨fun a rest hs hk => ⟨lowByte a, lowByte_toNat a, execOut_of_accepted hs hk⟩,
    fun a rest hs hk => ⟨lowByte a, lowByte_toNat a, execOut_of_held hs hk⟩,
    fun hs => ⟨exec_raises_of_empty rfl hs, _, execOut_of_empty hs, rfl, rfl, rfl⟩⟩

/-! ## Memory access -/

/-- Settles O30. -/
theorem boundsCheckAdmitsTheRange : Obligations.BoundsCheckAdmitsTheRange := fun s a =>
  ⟨fun h => admits_iff_strict h a, fun h => admits_iff_referenceLe h a, inMemory_iff s a⟩

theorem execLoad_of_inMemory (hs : s.stack = a :: rest) (hm : s.inMemory a = true) (hd : s.depthOk = true) :
    execLoad s = .next ({ s with stack := s.cell a :: rest } : State).advance := by
  have hroom : ({ s with stack := rest } : State).hasRoom = true := hasRoom_of_popped hs hd
  rw [execLoad, pop_of_cons hs, boundsCheck_of_admits (admits_of_inMemory (by exact hm)), memRead_of_inMemory (by exact hm),
    push_of_room hroom]
  rfl

theorem execLoad_of_rejected (hs : s.stack = a :: rest) (ha : s.admits a = false) :
    execLoad s = .next (s.raised .boundsViolation (.op .load)) := by
  rw [execLoad, pop_of_cons hs, boundsCheck_of_not (by exact ha), raised_withStack]

/-- Settles O31. -/
theorem loadReadsOneCell : Obligations.LoadReadsOneCell := by
  refine fun s => ⟨fun a rest hs hm hd => execLoad_of_inMemory hs hm hd, fun a rest hs ha => ?_, fun a rest hs ha hm => ?_,
    exec_raises_of_empty rfl⟩
  · exact raises_of_next (execLoad_of_rejected hs ha)
  · rw [exec, execLoad, pop_of_cons hs, boundsCheck_of_admits (by exact ha), memRead_of_not (by exact hm)]

theorem execStor_of_inMemory (hs : s.stack = a :: v :: rest) (hm : s.inMemory a = true) :
    execStor s = .next (({ s with stack := rest } : State).setCell a v).advance := by
  rw [execStor, pop_of_cons hs, pop_of_cons rfl, boundsCheck_of_admits (admits_of_inMemory (by exact hm)),
    memWrite_of_inMemory (by exact hm)]

theorem execStor_of_rejected (hs : s.stack = a :: v :: rest) (ha : s.admits a = false) :
    execStor s = .next (s.raised .boundsViolation (.op .stor)) := by
  rw [execStor, pop_of_cons hs, pop_of_cons rfl, boundsCheck_of_not (by exact ha)]
  rfl

/-- Settles O32: both pops come before the check of the address. -/
theorem storWritesOneCell : Obligations.StorWritesOneCell := by
  refine fun s => ⟨fun a v rest hs hm hwf => ?_, fun a v rest hs ha => ?_, fun a v rest hs ha hm => ?_, pop_pop_raises⟩
  · exact ⟨s.mem.write a.toNat v, execStor_of_inMemory hs hm, Memory.read_write_same hwf _ v,
      fun b hb => Memory.read_write_other hwf v hb, Memory.wf_write hwf _ v⟩
  · exact raises_of_next (execStor_of_rejected hs ha)
  · rw [exec, execStor, pop_of_cons hs, pop_of_cons rfl, boundsCheck_of_admits (by exact ha), memWrite_of_not (by exact hm)]

/-! ## Control transfer -/

theorem execJmp_of_ne (hs : s.stack = a :: rest) (ha : s.admits a = true) (hne : a ≠ s.ip) :
    execJmp s = .next { s with stack := rest, ip := a } := by
  rw [execJmp, pop_of_cons hs, boundsCheck_of_admits (by exact ha), if_neg (by exact hne)]

theorem execJmp_of_self (hs : s.stack = s.ip :: rest) (ha : s.admits s.ip = true) :
    execJmp s = .next { s with stack := rest, rs := .halted } := by
  rw [execJmp, pop_of_cons hs, boundsCheck_of_admits (by exact ha), if_pos rfl]
  rfl

theorem execJmp_of_rejected (hs : s.stack = a :: rest) (ha : s.admits a = false) :
    execJmp s = .next (s.raised .boundsViolation (.op .jmp)) := by
  rw [execJmp, pop_of_cons hs, boundsCheck_of_not (by exact ha), raised_withStack]

/-- Settles O33. -/
theorem jmpTransfersOrHalts : Obligations.JmpTransfersOrHalts := by
  refine fun s => ⟨fun a rest hs ha hne => execJmp_of_ne hs ha hne,
    fun rest hs ha => ⟨_, execJmp_of_self hs ha, rfl, rfl⟩, fun a rest hs ha => ?_, exec_raises_of_empty rfl⟩
  exact raises_of_next (execJmp_of_rejected hs ha)

theorem execJz_of_ne (hs : s.stack = a :: rest) (ha : a ≠ 0) :
    execJz s = .next ({ s with stack := rest } : State).advance := by
  have hz : isZero a = false := by simpa [isZero] using ha
  rw [execJz, pop_of_cons hs, hz]
  rfl

theorem execJz_of_zero (hw : s.cfg.wf = true) (hs : s.stack = 0 :: rest) :
    execJz s = .next { s with stack := rest, ip := 0 } := by
  have hz : isZero 0 = true := rfl
  rw [execJz, pop_of_cons hs, hz, if_pos rfl, boundsCheck_of_admits (admits_of_inMemory (inMemory_zero (by exact hw)))]

/-- R151 lists no BoundsViolation for JZ (C3), and what an instruction raises is listed. -/
theorem execJz_not_boundsViolation (hw : s.cfg.wf = true) (hr : s.rs = .running) (o : FatalOp) :
    ¬ Raises .boundsViolation o (exec .jz s) := by
  rintro ⟨t, r, h, hfatal, -, hrec, hk, -⟩
  obtain ⟨r', -, hop, hlisted, ht⟩ := raisingLeavesAPreciseState .jz s t hw hr h hfatal
  obtain rfl : r' = r := by
    rw [ht] at hrec
    exact Option.some.inj hrec
  simp [FatalRecord.listed, hk, hop, Instr.opcode] at hlisted

/-- Settles O34. -/
theorem jzJumpsToZeroOnly : Obligations.JzJumpsToZeroOnly := by
  refine fun s => ⟨fun a rest hs ha => execJz_of_ne hs ha, fun rest hs hw => execJz_of_zero hw hs, exec_raises_of_empty rfl,
    execJz_not_boundsViolation, fun t h ht => ?_⟩
  obtain hrs | hrs | ⟨hj, -⟩ := (exec_effect h).rs
  · exact hrs.symm.trans ht
  · nomatch hrs.symm.trans ht
  · nomatch hj

/-! ## Stack instructions -/

theorem execPush_of_full (hm : s.inMemory (s.ip + s.strideWord) = true) (hfull : s.hasRoom = false) :
    execPush v s = .refused .resourceExhausted := by
  rw [execPush, fetch_of_inMemory hm, push_of_full hfull]

theorem execPush_of_not (hm : s.inMemory (s.ip + s.strideWord) = false) :
    execPush v s = .next (s.raised .fetchOutOfBounds (.op .push)) :=
  fetch_of_not hm

/-- Settles O35. -/
theorem pushPushesTheLiteral : Obligations.PushPushesTheLiteral := by
  refine fun s v => ⟨fun hm hroom => ?_, execPush_of_full, fun hm => raises_of_next (execPush_of_not hm)⟩
  rw [exec, execPush, fetch_of_inMemory (by exact hm), push_of_room hroom]
  rfl

/-- DUP puts back what it popped, and so pushes one entry (R141). -/
theorem execDup_of_cons (hs : s.stack = a :: rest) (hroom : ({ s with stack := rest } : State).hasRoom = true) :
    execDup s = push a s fun s => .next s.advance := by
  rw [execDup, pop_of_cons hs, push_of_room hroom, ← hs]

/-- Settles O36: with room for one more entry both pushes fit; without it one of them does not. -/
theorem dupDoublesTheTop : Obligations.DupDoublesTheTop := by
  refine fun s => ⟨fun a rest hs hroom => ?_, fun a rest hs hfull => ?_, exec_raises_of_empty rfl⟩
  · have hrest : ({ s with stack := rest } : State).hasRoom = true :=
      (hasRoom_iff _).mpr fun c hc => by
        have := (hasRoom_iff s).mp hroom c hc
        simp only [hs, List.length_cons] at this
        exact Nat.lt_of_succ_lt this
    rw [exec, execDup_of_cons hs hrest, push_of_room hroom, hs]
    rfl
  · cases hrest : ({ s with stack := rest } : State).hasRoom with
    | true => rw [exec, execDup_of_cons hs hrest, push_of_full hfull]
    | false => rw [exec, execDup, pop_of_cons hs, push_of_full hrest]

end Sys2Proof.Machine
end

