-- ==== Sys2Proof/Proofs/Refusals.lean ====
section
/-! PROOFS. Where a run has no meaning (R43): what each primitive can refuse, the refusals of an instruction, and the machines
that refuse nothing but a load past the end. -/

namespace Sys2Proof.Machine

variable {s t : State} {r : Refusal} {i : Instr}

/-- An answer that is no refusal is a next state: no step ends in a fault. -/
theorem exists_next_of_not_refused {o : Result} (h : ∀ r, o ≠ .refused r) : ∃ t, o = .next t := by
  cases o with
  | next t => exact ⟨t, rfl⟩
  | fault f => nomatch f
  | refused r => exact absurd rfl (h r)

/-! ## The primitives -/

theorem pop_refused {o : Opcode} {f : Word → State → Result} (h : pop o s f = .refused r) :
    ∃ a rest, s.stack = a :: rest ∧ f a { s with stack := rest } = .refused r := by
  cases hs : s.stack with
  | nil => rw [pop_of_nil hs] at h; nomatch h
  | cons a rest => rw [pop_of_cons hs] at h; exact ⟨a, rest, rfl, h⟩

theorem push_refused {v : Word} {f : State → Result} (h : push v s f = .refused r) :
    (s.hasRoom = false ∧ r = .resourceExhausted) ∨ f { s with stack := v :: s.stack } = .refused r := by
  cases hr : s.hasRoom with
  | false => rw [push_of_full hr] at h; exact .inl ⟨rfl, (Host.Outcome.refused.inj h).symm⟩
  | true => rw [push_of_room hr] at h; exact .inr h

theorem boundsCheck_refused {a : Word} {o : Opcode} {f : State → Result} (h : boundsCheck a o s f = .refused r) :
    s.admits a = true ∧ f s = .refused r := by
  cases ha : s.admits a with
  | false => rw [boundsCheck_of_not ha] at h; nomatch h
  | true => rw [boundsCheck_of_admits ha] at h; exact ⟨rfl, h⟩

theorem memRead_refused {a : Word} {f : Word → Result} (h : memRead a s f = .refused r) :
    (s.inMemory a = false ∧ r = .undefinedAccessAtN) ∨ f (s.cell a) = .refused r := by
  cases ha : s.inMemory a with
  | false => rw [memRead_of_not ha] at h; exact .inl ⟨rfl, (Host.Outcome.refused.inj h).symm⟩
  | true => rw [memRead_of_inMemory ha] at h; exact .inr h

theorem memWrite_refused {a v : Word} {f : State → Result} (h : memWrite a v s f = .refused r) :
    (s.inMemory a = false ∧ r = .undefinedAccessAtN) ∨ f (s.setCell a v) = .refused r := by
  cases ha : s.inMemory a with
  | false => rw [memWrite_of_not ha] at h; exact .inl ⟨rfl, (Host.Outcome.refused.inj h).symm⟩
  | true => rw [memWrite_of_inMemory ha] at h; exact .inr h

theorem fetch_refused {a : Word} {op : FatalOp} {f : Word → Result} (h : fetch a op s f = .refused r) :
    f (s.cell a) = .refused r := by
  cases ha : s.inMemory a with
  | false => rw [fetch_of_not ha] at h; nomatch h
  | true => rwa [fetch_of_inMemory ha] at h

/-- A push after a pop is never refused while the stack keeps to its capacity (R33). -/
theorem push_after_pop_refused {v : Word} {st : List Word} {f : State → Result} (hd : s.depthOk = true)
    (hlt : st.length < s.stack.length) (h : push v { s with stack := st } f = .refused r) :
    f { s with stack := v :: st } = .refused r := by
  obtain ⟨hfull, -⟩ | h := push_refused h
  · nomatch (hasRoom_of_lt hd hlt).symm.trans hfull
  · exact h

theorem binary_not_refused {o : Opcode} {f : Word → Word → Word} (hd : s.depthOk = true) : binary o f s ≠ .refused r := by
  intro h
  obtain ⟨a, st, hs, h⟩ := pop_refused h
  obtain ⟨b, rest, hs', h⟩ := pop_refused h
  dsimp only at hs'
  nomatch push_after_pop_refused hd (by simp [hs, hs']) h

theorem unary_not_refused {o : Opcode} {f : Word → Word} (hd : s.depthOk = true) : unary o f s ≠ .refused r := by
  intro h
  obtain ⟨a, rest, hs, h⟩ := pop_refused h
  nomatch push_after_pop_refused hd (by simp [hs]) h

/-! ## Instructions -/

/-- A refusal that R43 lists for the instruction. -/
def ListedRefusal (i : Instr) (s : State) (r : Refusal) : Prop :=
  (r = .undefinedAccessAtN ∧ (i = .load ∨ i = .stor) ∧ s.cfg.boundsMode = .referenceLe ∧
    ∃ addr rest, s.stack = addr :: rest ∧ addr.toInt = s.cfg.memSize) ∨
  (r = .resourceExhausted ∧ s.cfg.stackCapacity = some s.stack.length ∧ (i = .inp ∨ i = .dup ∨ ∃ v, i = .push v))

/-- A stack within its capacity and without room is exactly full. -/
theorem stackCapacity_of_full (hd : s.depthOk = true) (hfull : s.hasRoom = false) :
    s.cfg.stackCapacity = some s.stack.length := by
  cases hc : s.cfg.stackCapacity with
  | none => simp [State.hasRoom, hc] at hfull
  | some c =>
    have hle : s.stack.length ≤ c := (depthOk_iff s).mp hd c hc
    have hge : ¬ s.stack.length < c := by simpa [State.hasRoom, hc] using hfull
    exact congrArg some (by omega)

theorem listedRefusal_of_full (hd : s.depthOk = true) (hfull : s.hasRoom = false ∧ r = .resourceExhausted)
    (hi : i = .inp ∨ i = .dup ∨ ∃ v, i = .push v) : ListedRefusal i s r :=
  .inr ⟨hfull.2, stackCapacity_of_full hd hfull.1, hi⟩

/-- What a checked access refuses is an admitted address without a cell, N under REFERENCE_LE (R55). -/
theorem listedRefusal_of_access {a : Word} {rest : List Word} (hs : s.stack = a :: rest) (ha : s.admits a = true)
    (hm : s.inMemory a = false ∧ r = .undefinedAccessAtN) (hi : i = .load ∨ i = .stor) : ListedRefusal i s r := by
  obtain ⟨hmode, hn⟩ := admitted_without_cell ha hm.1
  exact .inl ⟨hm.2, hi, hmode, a, rest, hs, hn⟩

theorem execIn_refused (hd : s.depthOk = true) (h : execIn s = .refused r) : ListedRefusal .inp s r := by
  cases hi : s.input.take.1 with
  | none => rw [execIn, inByte_of_none hi] at h; nomatch h
  | some a =>
    rw [execIn, inByte_of_some hi] at h
    obtain hfull | h := push_refused h
    · exact listedRefusal_of_full hd hfull (.inl rfl)
    · nomatch h

theorem execOut_not_refused : execOut s ≠ .refused r := by
  intro h
  obtain ⟨a, rest, hs, h⟩ := pop_refused h
  cases hk : s.sink.take.1 with
  | false => rw [outByte_of_false (by exact hk)] at h; nomatch h
  | true => rw [outByte_of_true (by exact hk)] at h; nomatch h

theorem execLoad_refused (hd : s.depthOk = true) (h : execLoad s = .refused r) : ListedRefusal .load s r := by
  obtain ⟨a, rest, hs, h⟩ := pop_refused h
  obtain ⟨ha, h⟩ := boundsCheck_refused h
  obtain hm | h := memRead_refused h
  · exact listedRefusal_of_access hs ha hm (.inl rfl)
  · nomatch push_after_pop_refused hd (by simp [hs]) h

theorem execStor_refused (h : execStor s = .refused r) : ListedRefusal .stor s r := by
  obtain ⟨a, st, hs, h⟩ := pop_refused h
  obtain ⟨v, rest, -, h⟩ := pop_refused h
  obtain ⟨ha, h⟩ := boundsCheck_refused h
  obtain hm | h := memWrite_refused h
  · exact listedRefusal_of_access hs ha hm (.inr rfl)
  · nomatch h

theorem execJmp_not_refused : execJmp s ≠ .refused r := by
  intro h
  obtain ⟨a, rest, -, h⟩ := pop_refused h
  obtain ⟨-, h⟩ := boundsCheck_refused h
  split at h <;> nomatch h

theorem execJz_not_refused : execJz s ≠ .refused r := by
  intro h
  obtain ⟨a, rest, -, h⟩ := pop_refused h
  split at h
  · nomatch (boundsCheck_refused h).2
  · nomatch h

theorem execPush_refused {v : Word} (hd : s.depthOk = true) (h : execPush v s = .refused r) :
    ListedRefusal (.push v) s r := by
  obtain hfull | h := push_refused (fetch_refused h)
  · exact listedRefusal_of_full hd hfull (.inr (.inr ⟨v, rfl⟩))
  · nomatch h

theorem execDup_refused (hd : s.depthOk = true) (h : execDup s = .refused r) : ListedRefusal .dup s r := by
  obtain ⟨a, rest, hs, h⟩ := pop_refused h
  have h := push_after_pop_refused hd (by simp [hs]) h
  rw [← hs] at h
  obtain hfull | h := push_refused h
  · exact listedRefusal_of_full hd hfull (.inr (.inl rfl))
  · nomatch h

/-- Settles O49, one law for each instruction. -/
theorem instructionsAreRefusedOnlyAsListed : Obligations.InstructionsAreRefusedOnlyAsListed := by
  intro i s r hd h
  change ListedRefusal i s r
  cases i with
  | nop => nomatch h
  | add | sub | and | or | xor => exact absurd h (binary_not_refused hd)
  | not => exact absurd h (unary_not_refused hd)
  | inp => exact execIn_refused hd h
  | out => exact absurd h execOut_not_refused
  | load => exact execLoad_refused hd h
  | stor => exact execStor_refused h
  | jmp => exact absurd h execJmp_not_refused
  | jz => exact absurd h execJz_not_refused
  | push v => exact execPush_refused hd h
  | dup => exact execDup_refused hd h

/-! ## Machines with STRICT bounds and an unbounded stack -/

theorem hasRoom_of_unbounded (hc : s.cfg.stackCapacity = none) : s.hasRoom = true := by
  simp [State.hasRoom, hc]

theorem depthOk_of_unbounded (hc : s.cfg.stackCapacity = none) : s.depthOk = true := by
  simp [State.depthOk, hc]

theorem exec_exists_next (hb : s.cfg.boundsMode = .strict) (hc : s.cfg.stackCapacity = none) (i : Instr) :
    ∃ t, exec i s = .next t := by
  refine exists_next_of_not_refused fun r h => ?_
  obtain ⟨-, -, hmode, -⟩ | ⟨-, hcap, -⟩ := instructionsAreRefusedOnlyAsListed i s r (depthOk_of_unbounded hc) h
  · nomatch hb.symm.trans hmode
  · nomatch hc.symm.trans hcap

theorem coreTurn_exists_next (hb : s.cfg.boundsMode = .strict) (hc : s.cfg.stackCapacity = none) :
    ∃ t, coreTurn s = .next t := by
  by_cases hr : s.rs = .running
  · rw [coreTurn_of_running hr]
    cases hm : s.inMemory s.ip with
    | false => exact ⟨_, cycle_of_not hm⟩
    | true =>
      rw [cycle_of_inMemory hm]
      exact exec_exists_next (by simpa using hb) (by simpa using hc) _
  · exact ⟨s, coreTurn_of_not_running hr⟩

theorem finishOut_exists_next (b : Byte) : ∃ t, finishOut b s = .next t := by
  cases hs : s.stack with
  | nil => exact ⟨_, pop_of_nil hs⟩
  | cons a rest => exact ⟨_, finishOut_of_cons b hs⟩

/-- With an unbounded stack a transaction answers a next state, but for a load without a cell at the cursor (R187). -/
theorem hostMove_exists_next {m : HostMove} (hc : s.cfg.stackCapacity = none)
    (hload : s.rs = .loading → (∃ v, m = .loadWord v) → s.inMemory s.ip = true) : ∃ t, hostMove m s = .next t := by
  cases m with
  | idle | reset => exact ⟨_, rfl⟩
  | loadWord v =>
    by_cases hl : s.rs = .loading
    · exact ⟨_, (hostMove_loadWord hl v).trans (loadWord_of_inMemory (hload hl ⟨v, rfl⟩))⟩
    · exact ⟨s, hostMove_of_misplaced (.inl ⟨hl, .inr ⟨v, rfl⟩⟩)⟩
  | start =>
    by_cases hl : s.rs = .loading
    · exact ⟨_, hostMove_start hl⟩
    · exact ⟨s, hostMove_of_misplaced (.inl ⟨hl, .inl rfl⟩)⟩
  | inResp a =>
    by_cases hq : s.rs = .running ∧ s.inReq = true
    · exact ⟨_, (hostMove_inResp hq.1 hq.2 a).trans (finishIn_of_room a (hasRoom_of_unbounded (by exact hc)))⟩
    · exact ⟨s, hostMove_of_misplaced (.inr (.inl ⟨hq, a, rfl⟩))⟩
  | outAck =>
    by_cases hq : s.rs = .running ∧ s.outReq ≠ none
    · obtain ⟨b, hb⟩ := Option.ne_none_iff_exists'.mp hq.2
      rw [hostMove_outAck hq.1 hb]
      exact finishOut_exists_next b
    · exact ⟨s, hostMove_of_misplaced (.inr (.inr ⟨hq, rfl⟩))⟩

/-- Settles O50. -/
theorem defaultMachineNeverStops : Obligations.DefaultMachineNeverStops := by
  intro s hw hb hc hload
  cases hcmds : s.cmds with
  | nil =>
    rw [step_of_turn hw (.inl ⟨hcmds, rfl⟩)]
    exact coreTurn_exists_next hb hc
  | cons m rest =>
    by_cases hi : m = .idle
    · subst hi
      rw [step_of_turn hw (.inr hcmds)]
      exact coreTurn_exists_next hb hc
    · rw [step_of_move hw hcmds hi]
      refine hostMove_exists_next hc fun hl ⟨v, hv⟩ => hload hl ⟨v, rest, ?_⟩
      rw [hcmds, hv]

end Sys2Proof.Machine
end

