-- ==== Sys2Proof/Proofs/Answers.lean ====
section
/-! PROOFS. The host's answers to a held IN or OUT (R110 to R112): by a transaction, and by the feed at a poll. -/

namespace Sys2Proof.Machine

variable {s t u : State} {rest : List HostMove} {a : InAnswer} {b : Byte}

theorem runSteps_one (s : State) : runSteps 1 s = step s := by
  cases h : step s with
  | next t => rw [runSteps_succ_of_next h, runSteps_zero]
  | fault f => nomatch f
  | refused r => rw [runSteps_succ_of_refused h]

theorem runSteps_two (h : step s = .next t) : runSteps 2 s = step t := by
  rw [runSteps_succ_of_next h, runSteps_one]

/-! ## Answers by a transaction -/

/-- An accepted `in_resp` completes the held IN and ends the request. -/
theorem step_inResp (hw : s.cfg.wf = true) (hr : s.rs = .running) (hq : s.inReq = true) (hc : s.cmds = .inResp a :: rest) :
    step s = finishIn a { s with cmds := rest, inReq := false } :=
  (step_of_move hw hc nofun).trans (hostMove_inResp (by exact hr) (by exact hq) a)

/-- An accepted `out_ack` completes the held OUT. -/
theorem step_outAck (hw : s.cfg.wf = true) (hr : s.rs = .running) (hq : s.outReq = some b) (hc : s.cmds = .outAck :: rest) :
    step s = finishOut b { s with cmds := rest } :=
  (step_of_move hw hc nofun).trans (hostMove_outAck (by exact hr) (by exact hq))

/-- Settles O7: an accepted answer ends its request, so a second one is misplaced. -/
theorem acceptedAnswersCompleteTheHeldCycle : Obligations.AcceptedAnswersCompleteTheHeldCycle := by
  intro s rest hw hr
  refine ⟨fun a hq hc hroom => ⟨a.word, ?_, ?_, ?_⟩, fun a hq hc hfull => ?_, fun b x st hq hc hs => ?_,
    fun a a' hq hc hroom => ?_, fun hq hc hs => ?_⟩
  · rintro b rfl
    exact word_byte_toInt b
  · rintro rfl
    exact word_eos_toInt
  · exact (step_inResp hw hr hq hc).trans (finishIn_of_room a (by exact hroom))
  · exact (step_inResp hw hr hq hc).trans (finishIn_of_full a (by exact hfull))
  · exact (step_outAck hw hr hq hc).trans (finishOut_of_cons b hs)
  · have h := (step_inResp hw hr hq hc).trans (finishIn_of_room a (by exact hroom))
    refine ⟨_, h, (runSteps_two h).trans (step_of_misplaced (by exact hw) rfl (.inr (.inl ⟨?_, a', rfl⟩)))⟩
    exact fun hheld => nomatch hheld.2
  · obtain ⟨b, hb⟩ := Option.ne_none_iff_exists'.mp hq
    obtain ⟨x, st, hs⟩ := List.exists_cons_of_ne_nil hs
    have h := (step_outAck hw hr hb hc).trans (finishOut_of_cons b hs)
    refine ⟨_, h, (runSteps_two h).trans (step_of_misplaced (by exact hw) rfl (.inr (.inr ⟨?_, rfl⟩)))⟩
    exact fun hheld => hheld.2 rfl

/-! ## Answers at a poll -/

theorem input_take_of_queue {x : Option InAnswer} {q : List (Option InAnswer)} (h : s.input.queue = x :: q) :
    s.input.take.1 = x := by
  simp [InFeed.take, h]

theorem sink_take_of_queue {x : Bool} {q : List Bool} (h : s.sink.queue = x :: q) : s.sink.take.1 = x := by
  simp [OutFeed.take, h]

/-- An opcode other than PUSH is the whole instruction (R76). -/
theorem instrAtIp_of_ne_push {i : Instr} (h : s.opcodeAtIp = i.opcode) (hp : i.opcode ≠ .push) : s.instrAtIp = i := by
  rw [instrAtIp_eq, h, Instr.withLiteral_opcode hp]

/-- The poll of a held IN emits no second record (log 9). -/
theorem step_heldIn (hi : s.Inv) (hq : s.inReq = true) (hc : s.cmds = []) : step s = execIn s := by
  obtain ⟨hr, hm, ho⟩ := hi.heldIn hq
  rw [step_of_fetched hi.cfgWf hr hc hm, instrAtIp_of_ne_push (i := .inp) ho nofun,
    traced_of_resuming ((resuming_iff s).mpr (.inl ⟨ho, hq⟩))]
  rfl

theorem step_heldOut (hi : s.Inv) (hq : s.outReq = some b) (hc : s.cmds = []) : step s = execOut s := by
  obtain ⟨hr, hm, ho, -⟩ := hi.heldOut b hq
  rw [step_of_fetched hi.cfgWf hr hc hm, instrAtIp_of_ne_push (i := .out) ho nofun,
    traced_of_resuming ((resuming_iff s).mpr (.inr ⟨ho, by simp [hq]⟩))]
  rfl

/-- Settles O8: both ways finish the same held instruction, the poll with its answer off the feed. -/
theorem answersByPortAndByPollAgree : Obligations.AnswersByPortAndByPollAgree := by
  intro s rest hi hr
  have hw := hi.cfgWf
  refine ⟨fun a q hq hqueue hc => ?_, fun q hq hqueue hc => ?_⟩
  · have hport : step { s with cmds := .inResp a :: rest } = finishIn a { s with cmds := rest, inReq := false } :=
      step_inResp (s := { s with cmds := .inResp a :: rest }) hw hr hq rfl
    have hpoll : step s = finishIn a s.inputPolled.answered :=
      (step_heldIn hi hq hc).trans (inByte_of_some (input_take_of_queue hqueue))
    rw [hport, hpoll, ← hc]
    cases hroom : s.hasRoom with
    | false => rw [finishIn_of_full a (by exact hroom), finishIn_of_full a (by exact hroom)]; rfl
    | true => rw [finishIn_of_room a (by exact hroom), finishIn_of_room a (by exact hroom)]; rfl
  · obtain ⟨b, hb⟩ := Option.ne_none_iff_exists'.mp hq
    obtain ⟨-, -, -, x, st, hs, rfl⟩ := hi.heldOut b hb
    have hport : step { s with cmds := .outAck :: rest } = finishOut (lowByte x) { s with cmds := rest } :=
      step_outAck (s := { s with cmds := .outAck :: rest }) hw hr hb rfl
    have hpoll : step s = execOut s := step_heldOut hi hb hc
    rw [hport, hpoll, execOut_of_accepted hs (sink_take_of_queue hqueue), finishOut_of_cons _ (by exact hs), ← hc]
    rfl

end Sys2Proof.Machine
end

