-- ==== Sys2Proof/Proofs/Feeds.lean ====
section
/-! PROOFS. What the polls of a port find (R110, R111, R115), and holds that never end (R112). -/

namespace Sys2Proof.Machine

/-! ## Feeds of any kind

`take` gives the answer at a poll and what is left of the feed; `(fun f => (take f).2)^[n]` is the feed after `n` polls. -/

section
variable {F A : Type} {take : F → A × F} {feed : List A → F}

theorem polls_drained (hcons : ∀ a q, take (feed (a :: q)) = (a, feed q)) (q : List A) :
    (fun f => (take f).2)^[q.length] (feed q) = feed [] := by
  induction q with
  | nil => rfl
  | cons a q ih => rw [List.length_cons, Function.iterate_succ_apply, hcons, ih]

/-- A queue is answered in order. -/
theorem polls_queue (hcons : ∀ a q, take (feed (a :: q)) = (a, feed q)) {q : List A} {n : Nat} (hn : n < q.length) :
    some (take ((fun f => (take f).2)^[n] (feed q))).1 = q[n]? := by
  induction q generalizing n with
  | nil => nomatch hn
  | cons a q ih =>
    cases n with
    | zero => rw [Function.iterate_zero_apply, hcons, List.getElem?_cons_zero]
    | succ n =>
      rw [Function.iterate_succ_apply, hcons, List.getElem?_cons_succ]
      exact ih (Nat.lt_of_succ_lt_succ hn)

/-- Past its end, a queue that goes on with one answer for ever gives that answer. -/
theorem polls_past_queue {x : A} (hcons : ∀ a q, take (feed (a :: q)) = (a, feed q)) (hnil : take (feed []) = (x, feed []))
    {q : List A} {n : Nat} (hn : q.length ≤ n) : (take ((fun f => (take f).2)^[n] (feed q))).1 = x := by
  obtain ⟨k, rfl⟩ := Nat.exists_eq_add_of_le' hn
  have hfix : (fun f => (take f).2) (feed []) = feed [] := congrArg Prod.snd hnil
  rw [Function.iterate_add_apply, polls_drained hcons, Function.iterate_fixed hfix, hnil]

/-- A feed that starts its block again when the queue is empty goes through the block over and over. -/
theorem polls_loop {x : A} {xs : List A} (hcons : ∀ a q, take (feed (a :: q)) = (a, feed q))
    (hnil : take (feed []) = (x, feed xs)) (n : Nat) :
    some (take ((fun f => (take f).2)^[n] (feed []))).1 = (x :: xs)[n % (xs.length + 1)]? := by
  have hperiod : Function.IsPeriodicPt (fun f => (take f).2) (xs.length + 1) (feed []) := by
    rw [Function.IsPeriodicPt, Function.IsFixedPt, Function.iterate_succ_apply, hnil, polls_drained hcons]
  have hlt : n % (xs.length + 1) < xs.length + 1 := Nat.mod_lt _ (Nat.succ_pos _)
  rw [← hperiod.iterate_mod_apply n]
  cases hk : n % (xs.length + 1) with
  | zero => rw [Function.iterate_zero_apply, hnil, List.getElem?_cons_zero]
  | succ k =>
    rw [Function.iterate_succ_apply, hnil, List.getElem?_cons_succ]
    exact polls_queue hcons (by omega)

/-- A feed of numbered answers gives them in order. -/
theorem polls_numbered {answer : Nat → A} {numbered : Nat → F}
    (h : ∀ k, take (numbered k) = (answer k, numbered (k + 1))) (k n : Nat) :
    (take ((fun f => (take f).2)^[n] (numbered k))).1 = answer (k + n) := by
  induction n generalizing k with
  | zero => rw [Function.iterate_zero_apply, h]; rfl
  | succ n ih => rw [Function.iterate_succ_apply, h, ih, Nat.succ_add_eq_add_succ]

end

/-- Settles O27, each clause by the law of its kind of feed. -/
theorem feedsAnswerInOrder : Obligations.FeedsAnswerInOrder := by
  refine ⟨fun bytes n => ?_,
    fun k n => polls_numbered (take := InFeed.take) (answer := fun k => some (.byte (Config.freeByte k)))
      (numbered := fun k => ⟨[], .bytes k⟩) (fun _ => rfl) k n,
    fun x xs n => polls_loop (take := InFeed.take) (feed := fun q => ⟨q, .loop x xs⟩) (fun _ _ => rfl) rfl n,
    fun k n => polls_numbered (take := InFeed.take) (numbered := fun k => ⟨[], .free k⟩) (fun _ => rfl) k n,
    fun q x n hn => polls_queue (take := OutFeed.take) (feed := fun q => ⟨q, .loop x []⟩) (fun _ _ => rfl) hn,
    fun x xs n => polls_loop (take := OutFeed.take) (feed := fun q => ⟨q, .loop x xs⟩) (fun _ _ => rfl) rfl n,
    fun k n => polls_numbered (take := OutFeed.take) (numbered := fun k => ⟨[], .free k⟩) (fun _ => rfl) k n⟩
  by_cases hn : n < bytes.length
  · have hlaw := polls_queue (take := InFeed.take) (feed := fun q => ⟨q, .loop (some .eos) []⟩) (fun _ _ => rfl)
      (q := bytes.map fun b => some (.byte b)) (n := n) (by simpa using hn)
    rw [List.getElem?_map, List.getElem?_eq_getElem hn] at hlaw
    rw [List.getElem?_eq_getElem hn]
    exact Option.some.inj hlaw
  · rw [List.getElem?_eq_none (by omega)]
    exact polls_past_queue (take := InFeed.take) (feed := fun q => ⟨q, .loop (some .eos) []⟩) (fun _ _ => rfl) rfl
      (by simpa using hn)

/-! ## Holds that never end -/

variable {s t u : State}

/-- What a step keeps whenever it holds, a run of any length keeps. -/
theorem runSteps_keeps {P : State → Prop} (hstep : ∀ s, P s → ∃ t, step s = .next t ∧ P t) (n : Nat) (h : P s) :
    ∃ t, runSteps n s = .next t ∧ P t := by
  induction n generalizing s with
  | zero => exact ⟨s, rfl, h⟩
  | succ n ih =>
    obtain ⟨t, ht, hP⟩ := hstep s h
    rw [runSteps_succ_of_next ht]
    exact ih hP

theorem SameCore.trans (h : SameCore s t) (h' : SameCore t u) : SameCore s u := by
  obtain ⟨hmem, hstack, hip, hrs, hfatal⟩ := h
  obtain ⟨hmem', hstack', hip', hrs', hfatal'⟩ := h'
  exact ⟨hmem'.trans hmem, hstack'.trans hstack, hip'.trans hip, hrs'.trans hrs, hfatal'.trans hfatal⟩

/-- The core stands at an IN that the host never answers, or at an OUT, with an operand, that it never accepts. -/
structure WaitsForEver (s : State) : Prop where
  cfgWf : s.cfg.wf = true
  running : s.rs = .running
  noMove : s.cmds = []
  fetched : s.inMemory s.ip = true
  silent : s.opcodeAtIp = .inp ∧ s.input = { queue := [], rest := .loop none [] } ∨
    s.opcodeAtIp = .out ∧ s.stack ≠ [] ∧ s.sink = { queue := [], rest := .loop false [] }

/-- A poll without an answer changes the port's request only, and the host has as little to say at the next. -/
theorem WaitsForEver.step (h : WaitsForEver s) : ∃ t, step s = .next t ∧ WaitsForEver t ∧ SameCore s t ∧ t.out = s.out := by
  obtain ⟨tr, htr⟩ := traced_eq s
  obtain ⟨hw, hr, hc, hm, ⟨ho, hf⟩ | ⟨ho, hs, hf⟩⟩ := h
  · refine ⟨({ s with trace := tr } : State).inputPolled.heldAtIn, ?_, ⟨hw, hr, hc, hm, .inl ⟨ho, ?_⟩⟩,
      ⟨rfl, rfl, rfl, rfl, rfl⟩, rfl⟩
    · rw [step_of_fetched hw hr hc hm, instrAtIp_of_ne_push (i := .inp) ho nofun, htr]
      exact inByte_of_none (by simp [hf, InFeed.take])
    · simp [hf, InFeed.take]
  · obtain ⟨a, st, hs⟩ := List.exists_cons_of_ne_nil hs
    refine ⟨({ s with trace := tr } : State).sinkPolled.heldAtOut (lowByte a), ?_,
      ⟨hw, hr, hc, hm, .inr ⟨ho, by simp [hs], ?_⟩⟩, ⟨rfl, rfl, rfl, rfl, rfl⟩, rfl⟩
    · rw [step_of_fetched hw hr hc hm, instrAtIp_of_ne_push (i := .out) ho nofun, htr]
      exact execOut_of_held (by exact hs) (by simp [hf, OutFeed.take])
    · simp [hf, OutFeed.take]

theorem WaitsForEver.run (h : WaitsForEver s) (n : Nat) :
    ∃ t, runSteps n s = .next t ∧ WaitsForEver t ∧ SameCore s t ∧ t.out = s.out := by
  refine runSteps_keeps (P := fun t => WaitsForEver t ∧ SameCore s t ∧ t.out = s.out) ?_ n
    ⟨h, ⟨rfl, rfl, rfl, rfl, rfl⟩, rfl⟩
  rintro u ⟨hu, hsame, hout⟩
  obtain ⟨t, ht, hwait, hsame', hout'⟩ := hu.step
  exact ⟨t, ht, hwait, hsame.trans hsame', hout'.trans hout⟩

/-- The Word at `ip` selects the opcode whose value it is (R73). -/
theorem opcodeAtIp_of_value {o : Opcode} (hw : s.cfg.wf = true) (h : s.mem.read s.ip.toNat = s.cfg.opcodeMap.value o) :
    s.opcodeAtIp = o := by
  rw [opcodeAtIp_eq, h, decodeOpcode_value (opcodeMap_wf hw)]

/-- Settles O29. -/
theorem heldPortsChangeNoStateForEver : Obligations.HeldPortsChangeNoStateForEver := by
  refine ⟨fun s hi => ⟨_, inByte_of_none hi, ⟨rfl, rfl, rfl, rfl, rfl⟩, rfl, rfl⟩,
    fun s a rest hs hk => ⟨_, execOut_of_held hs hk, ⟨rfl, rfl, rfl, rfl, rfl⟩, rfl, nofun⟩,
    fun s n hw hr hc hlo hhi hwait => ?_⟩
  have hm : s.inMemory s.ip = true := (inMemory_iff s s.ip).mpr ⟨hlo, hhi⟩
  have hwaits : WaitsForEver s := by
    obtain ⟨hop, hf⟩ | ⟨hop, hs, hf⟩ := hwait
    · exact ⟨hw, hr, hc, hm, .inl ⟨opcodeAtIp_of_value (o := .inp) hw hop, hf⟩⟩
    · exact ⟨hw, hr, hc, hm, .inr ⟨opcodeAtIp_of_value (o := .out) hw hop, hs, hf⟩⟩
  obtain ⟨t, ht, hwait', hsame, hout⟩ := hwaits.run n
  exact ⟨t, ht, hsame, hout, exitStatus_of_running hwait'.running⟩

end Sys2Proof.Machine
end

