-- ==== Sys2Proof/Proofs/Boot.lean ====
section
/-! PROOFS. The boot sequence `reset`, `load_word` for each word of an image, `start` (R181 to R183, R187). -/

namespace Sys2Proof

/-! ## Program slots -/

/-- ceil(N / STRIDE), the number of program slots of Memory (R187). -/
def Config.slotCount (c : Config) : Nat := (c.memSize + c.stride - 1) / c.stride

theorem Config.imageFits_iff (c : Config) (image : List Word) :
    c.imageFits image = true ↔ image.length ≤ c.slotCount := by
  rw [Config.imageFits, decide_eq_true_eq, Config.slotCount]

/-- Each of these slots starts at a cell. -/
theorem Config.slot_lt {c : Config} (hw : c.wf = true) {k : Nat} (hk : k < c.slotCount) : k * c.stride < c.memSize := by
  have hpos := Machine.stride_pos hw
  have hle : (k + 1) * c.stride ≤ c.memSize + c.stride - 1 := (Nat.le_div_iff_mul_le hpos).mp hk
  rw [Nat.succ_mul] at hle
  omega

/-- The slot after them starts at or past N. -/
theorem Config.memSize_le_slots {c : Config} (hw : c.wf = true) : c.memSize ≤ c.slotCount * c.stride := by
  have hpos := Machine.stride_pos hw
  have hlt : c.memSize + c.stride - 1 < c.slotCount * c.stride + c.stride := Nat.lt_div_mul_add hpos
  omega

/-- That slot starts less than a stride past N. -/
theorem Config.slots_lt {c : Config} (hw : c.wf = true) : c.slotCount * c.stride < c.memSize + c.stride := by
  have hpos := Machine.stride_pos hw
  have hle : c.slotCount * c.stride ≤ c.memSize + c.stride - 1 := Nat.div_mul_le_self _ _
  omega

/-- The address of a slot, or of the one after the last, is a Word without wrapping. -/
theorem Config.toNat_slot {c : Config} (hw : c.wf = true) {k : Nat} (hk : k ≤ c.slotCount) :
    (BitVec.ofNat 32 (k * c.stride)).toNat = k * c.stride := by
  have hb := Machine.memSize_stride_le hw
  have hle : k * c.stride < c.memSize + c.stride := (Nat.mul_le_mul_right _ hk).trans_lt (Config.slots_lt hw)
  rw [BitVec.toNat_ofNat]
  omega

theorem Config.slot_add_stride (c : Config) (k : Nat) :
    BitVec.ofNat 32 (k * c.stride) + BitVec.ofNat 32 c.stride = BitVec.ofNat 32 ((k + 1) * c.stride) := by
  rw [Nat.succ_mul, BitVec.ofNat_add]

namespace Machine

/-! ## An image in memory -/

/-- Memory once the words of an image are in the slots from `k` on. -/
def placeWords (stride : Nat) : Nat → List Word → Memory → Memory
  | _, [], m => m
  | k, w :: ws, m => placeWords stride (k + 1) ws (m.write (k * stride) w)

/-- Cells away from the slots are as before. -/
theorem read_placeWords_other {stride k a : Nat} {ws : List Word} {m : Memory} (hm : m.wf = true)
    (ha : ∀ j, j < ws.length → a ≠ (k + j) * stride) : (placeWords stride k ws m).read a = m.read a := by
  induction ws generalizing k m with
  | nil => rfl
  | cons w ws ih =>
    rw [placeWords, ih (Memory.wf_write hm _ w) fun j hj => ?_, Memory.read_write_other hm w]
    · exact ha 0 (Nat.succ_pos _)
    · rw [Nat.add_assoc, Nat.add_comm 1 j]
      exact ha (j + 1) (Nat.succ_lt_succ hj)

/-- Each slot holds its word: the words after it go to other slots. -/
theorem read_placeWords {stride k j : Nat} {ws : List Word} {m : Memory} {w : Word} (hs : 1 ≤ stride) (hm : m.wf = true)
    (hw : ws[j]? = some w) : (placeWords stride k ws m).read ((k + j) * stride) = w := by
  induction ws generalizing k j m with
  | nil => nomatch hw
  | cons v ws ih =>
    have hm' : (m.write (k * stride) v).wf = true := Memory.wf_write hm _ v
    cases j with
    | zero =>
      obtain rfl : v = w := Option.some.inj hw
      rw [Nat.add_zero k, placeWords, read_placeWords_other hm' fun j _ => ?_, Memory.read_write_same hm]
      exact fun h => by
        have := Nat.eq_of_mul_eq_mul_right hs h
        omega
    | succ j =>
      rw [placeWords, ← Nat.succ_add_eq_add_succ k j]
      exact ih hm' hw

/-! ## Loading -/

/-- `s` with the loader's cursor at slot `k`, memory `m`, and the transactions `c` to come. -/
def State.loaderAt (s : State) (m : Memory) (k : Nat) (c : List HostMove) : State :=
  { s with mem := m, ip := BitVec.ofNat 32 (k * s.cfg.stride), cmds := c }

variable {s : State} {rest : List HostMove} {m : Memory} {k : Nat}

theorem advance_loaderAt (s : State) (m : Memory) (k : Nat) (c : List HostMove) :
    (s.loaderAt m k c).advance = s.loaderAt m (k + 1) c :=
  congrArg (fun a => ({ s with mem := m, ip := a, cmds := c } : State)) (Config.slot_add_stride s.cfg k)

theorem setCell_loaderAt (hw : s.cfg.wf = true) (hk : k ≤ s.cfg.slotCount) (w : Word) (c : List HostMove) :
    (s.loaderAt m k c).setCell (s.loaderAt m k c).ip w = s.loaderAt (m.write (k * s.cfg.stride) w) k c :=
  congrArg (fun a => s.loaderAt (m.write a w) k c) (Config.toNat_slot hw hk)

/-- A load into slot `k` moves the cursor to the next slot (R181). -/
theorem step_loadWord {w : Word} (hw : s.cfg.wf = true) (hl : s.rs = .loading) (hk : k < s.cfg.slotCount) :
    step (s.loaderAt m k (.loadWord w :: rest)) = .next (s.loaderAt (m.write (k * s.cfg.stride) w) (k + 1) rest) := by
  have hm : (s.loaderAt m k rest).inMemory (s.loaderAt m k rest).ip = true := by
    refine (inMemory_iff_toNat (s := s.loaderAt m k rest) hw _).mpr ((Config.toNat_slot hw hk.le).trans_lt ?_)
    exact Config.slot_lt hw hk
  calc step (s.loaderAt m k (.loadWord w :: rest))
      = hostMove (.loadWord w) (s.loaderAt m k rest) :=
        step_of_move (s := s.loaderAt m k (.loadWord w :: rest)) hw rfl nofun
    _ = .next ((s.loaderAt m k rest).setCell (s.loaderAt m k rest).ip w).advance := by
        rw [hostMove_loadWord (by exact hl), loadWord_of_inMemory hm]
    _ = .next (s.loaderAt (m.write (k * s.cfg.stride) w) (k + 1) rest) := by
        rw [setCell_loaderAt hw hk.le, advance_loaderAt]

/-- Loading words into slots that exist takes a step for each. -/
theorem runSteps_loadWords (ws : List Word) (hw : s.cfg.wf = true) (hl : s.rs = .loading)
    (hfit : k + ws.length ≤ s.cfg.slotCount) :
    runSteps ws.length (s.loaderAt m k (ws.map .loadWord ++ rest)) =
      .next (s.loaderAt (placeWords s.cfg.stride k ws m) (k + ws.length) rest) := by
  induction ws generalizing k m with
  | nil => rfl
  | cons w ws ih =>
    rw [List.length_cons] at hfit ⊢
    have hfirst : step (s.loaderAt m k (.loadWord w :: (ws.map .loadWord ++ rest))) = _ := step_loadWord hw hl (by omega)
    calc runSteps (ws.length + 1) (s.loaderAt m k ((w :: ws).map .loadWord ++ rest))
        = runSteps ws.length (s.loaderAt (m.write (k * s.cfg.stride) w) (k + 1) (ws.map .loadWord ++ rest)) :=
          runSteps_succ_of_next hfirst
      _ = .next (s.loaderAt (placeWords s.cfg.stride k (w :: ws) m) (k + 1 + ws.length) rest) := ih (by omega)
      _ = .next (s.loaderAt (placeWords s.cfg.stride k (w :: ws) m) (k + (ws.length + 1)) rest) := by
        rw [Nat.succ_add_eq_add_succ k]

/-- The first transaction of a boot sequence leaves the loader at slot 0 of an empty memory (R180). -/
theorem step_boot {image : List Word} (hw : s.cfg.wf = true) (hc : s.cmds = bootMoves image ++ rest) :
    step s = .next (s.afterReset.loaderAt [] 0 (image.map .loadWord ++ .start :: rest)) := by
  have hmoves : s.cmds = .reset :: (image.map .loadWord ++ .start :: rest) := by simp [hc, bootMoves]
  rw [resetIsAcceptedInEveryRunState s _ hw hmoves, State.loaderAt, zero_mul]
  rfl

/-- Settles O9. -/
theorem bootPlacesTheImageAndStarts : Obligations.BootPlacesTheImageAndStarts := by
  intro s image rest hw hfit hc
  refine ⟨placeWords s.cfg.stride 0 image [], ?_, fun k w hk => ?_, fun a ha => ?_⟩
  · have hload := runSteps_loadWords (s := s.afterReset) (m := []) (k := 0) (rest := .start :: rest) image hw rfl
      (by simpa using (Config.imageFits_iff _ _).mp hfit)
    rw [runSteps_succ_of_next (step_boot hw hc), runSteps_add hload, runSteps_one]
    exact startSetsIpToZeroAndRuns _ rest hw rfl rfl
  · simpa using read_placeWords (k := 0) (m := []) (stride_pos hw) rfl hk
  · exact read_placeWords_other rfl fun j hj => by simpa using ha j hj

/-- A load past the last slot is refused (R187). -/
theorem step_loadWord_past {w : Word} (hw : s.cfg.wf = true) (hl : s.rs = .loading) :
    step (s.loaderAt m s.cfg.slotCount (.loadWord w :: rest)) = .refused .loadOverflow := by
  refine (loadWordWritesTheCursorCell (s.loaderAt m s.cfg.slotCount (.loadWord w :: rest)) w rest hw hl rfl).2 ?_
  have hb := memSize_stride_le hw
  have haddr := Config.toNat_slot hw le_rfl
  have hend := Config.memSize_le_slots hw
  have hlt := Config.slots_lt hw
  change (s.cfg.memSize : Int) ≤ (BitVec.ofNat 32 (s.cfg.slotCount * s.cfg.stride)).toInt
  rw [toInt_of_lt (by omega), haddr]
  exact_mod_cast hend

/-- Settles O10: the words that fit are loaded, and the next one is a load past the last slot. -/
theorem overlongImageIsRefused : Obligations.OverlongImageIsRefused := by
  intro s image rest hw hfit hc
  have hlong : s.cfg.slotCount < image.length := by
    rw [← Nat.not_le, ← Config.imageFits_iff, hfit]
    exact Bool.false_ne_true
  obtain ⟨fits, w, ws, rfl, hlen⟩ : ∃ fits w ws, image = fits ++ w :: ws ∧ fits.length = s.cfg.slotCount :=
    ⟨image.take s.cfg.slotCount, image[s.cfg.slotCount], image.drop (s.cfg.slotCount + 1), by simp, by
      simp [hlong.le]⟩
  have hload := runSteps_loadWords (s := s.afterReset) (m := []) (k := 0)
    (rest := .loadWord w :: (ws.map .loadWord ++ .start :: rest)) fits hw rfl (by simp [hlen])
  have hboot := step_boot hw hc
  rw [List.map_append, List.append_assoc] at hboot
  rw [List.length_append, List.length_cons, runSteps_succ_of_next hboot]
  refine (runSteps_add hload).trans (runSteps_succ_of_refused ?_)
  rw [Nat.zero_add, hlen]
  exact step_loadWord_past (s := s.afterReset) hw rfl

end Machine

end Sys2Proof
end

