-- ==== Sys2Proof/Proofs/Programs.lean ====
section
/-! PROOFS. Short programs: a STOR seen by the next fetch (R63), store and load (R122), the halt idiom (R81), and a memory of
NOPs (R186). -/

namespace Sys2Proof.Machine

variable {s t : State} {m : Memory} {st : List Word} {k : Nat}

/-! ## A store and the next fetch -/

/-- Read after write, with Words for addresses. -/
theorem Memory.read_write_word (hm : m.wf = true) (a v b : Word) :
    (m.write a.toNat v).read b.toNat = if a = b then v else m.read b.toNat := by
  simp only [Memory.read_write hm, BitVec.toNat_inj, eq_comm]

/-- Settles O56: the next fetch reads the memory that the STOR has written. -/
theorem nextFetchSeesTheStore : Obligations.NextFetchSeesTheStore := by
  intro s addr value rest hw hwf hr hc hm hop hs haddr
  have hi : s.instrAtIp = .stor := instrAtIp_of_ne_push (i := .stor) (opcodeAtIp_of_value (o := .stor) hw hop) nofun
  obtain ⟨tr, htr⟩ := traced_eq s
  refine ⟨(({ s with trace := tr, stack := rest } : State).setCell addr value).advance, ?_, hr, rfl, ?_, ?_⟩
  · rw [step_of_fetched hw hr hc hm, hi, htr]
    exact execStor_of_inMemory (by exact hs) (by exact haddr)
  · exact congrArg (decodeOpcode s.cfg.opcodeMap) (Memory.read_write_word hwf addr value _)
  · exact Memory.read_write_word hwf addr value _

/-! ## Straight-line code -/

/-- `s` with memory `m` and stack `st`, `k` slots on. -/
def State.slotsOn (s : State) (m : Memory) (st : List Word) (k : Nat) : State :=
  { s with mem := m, stack := st, ip := s.ip + BitVec.ofNat 32 (k * s.cfg.stride) }

theorem slotsOn_zero (s : State) : s.slotsOn s.mem s.stack 0 = s := by
  rw [State.slotsOn, zero_mul, BitVec.add_zero]

theorem advance_slotsOn (s : State) (m : Memory) (st : List Word) (k : Nat) :
    (s.slotsOn m st k).advance = s.slotsOn m st (k + 1) := by
  have hip : (s.slotsOn m st k).ip + s.strideWord = (s.slotsOn m st (k + 1)).ip :=
    (add_assoc _ _ _).trans (congrArg (s.ip + ·) (Config.slot_add_stride s.cfg k))
  exact congrArg (fun a => ({ s with mem := m, stack := st, ip := a } : State)) hip

/-- A slot whose offset from `ip` stays below N has a cell (R25). -/
theorem inMemory_slotsOn (hw : s.cfg.wf = true) (hlo : 0 ≤ s.ip.toInt)
    (hhi : s.ip.toInt + k * s.cfg.stride < s.cfg.memSize) :
    s.inMemory (s.slotsOn m st k).ip = true ∧ (s.slotsOn m st k).ip.toNat = s.ip.toNat + k * s.cfg.stride := by
  have hb := memSize_stride_le hw
  rw [toInt_eq_toNat hlo] at hhi
  have hlt : s.ip.toNat + k * s.cfg.stride < s.cfg.memSize := by exact_mod_cast hhi
  have hnat : (s.slotsOn m st k).ip.toNat = s.ip.toNat + k * s.cfg.stride := by
    rw [State.slotsOn, BitVec.toNat_add, BitVec.toNat_ofNat]
    omega
  exact ⟨(inMemory_iff_toNat hw _).mpr (hnat ▸ hlt), hnat⟩

theorem exec_push_slotsOn (v : Word) (hlit : s.inMemory (s.slotsOn m st (k + 1)).ip = true)
    (hroom : ({ s with stack := st } : State).hasRoom = true) :
    exec (.push v) (s.slotsOn m st k) = .next (s.slotsOn m (v :: st) (k + 2)) := by
  have hslot : (s.slotsOn m st k).inMemory ((s.slotsOn m st k).ip + (s.slotsOn m st k).strideWord) = true := by
    rw [← advance_slotsOn] at hlit
    exact hlit
  rw [exec, execPush, fetch_of_inMemory hslot, push_of_room (by exact hroom)]
  exact congrArg Host.Outcome.next ((congrArg State.advance (advance_slotsOn s m (v :: st) k)).trans
    (advance_slotsOn s m (v :: st) (k + 1)))

theorem exec_stor_slotsOn {a : Word} (v : Word) (ha : s.inMemory a = true) :
    exec .stor (s.slotsOn m (a :: v :: st) k) = .next (s.slotsOn (m.write a.toNat v) st (k + 1)) := by
  rw [← advance_slotsOn]
  exact execStor_of_inMemory rfl ha

theorem exec_load_slotsOn {a : Word} (ha : s.inMemory a = true) (hd : ({ s with stack := a :: st } : State).depthOk = true) :
    exec .load (s.slotsOn m (a :: st) k) = .next (s.slotsOn m (m.read a.toNat :: st) (k + 1)) := by
  rw [← advance_slotsOn]
  exact execLoad_of_inMemory rfl ha hd

theorem execAll_cons {i : Instr} {is : List Instr} (h : exec i s = .next t) : execAll (i :: is) s = execAll is t := by
  rw [execAll, h]

/-- Settles O57: each of the five instructions moves on by its slots. -/
theorem storeThenLoadGivesTheValueBack : Obligations.StoreThenLoadGivesTheValueBack := by
  intro s v addr hw hwf haddr hlo hhi hcap
  have hslot (m : Memory) (st : List Word) (k : Nat) (hk : k ≤ 6) : s.inMemory (s.slotsOn m st k).ip = true := by
    have hle : (k : Int) * s.cfg.stride ≤ 6 * s.cfg.stride := by
      exact_mod_cast Nat.mul_le_mul_right s.cfg.stride hk
    exact (inMemory_slotsOn hw hlo (by omega)).1
  have hroom (st : List Word) (hst : st.length ≤ s.stack.length + 1) : ({ s with stack := st } : State).hasRoom = true :=
    (hasRoom_iff _).mpr fun c hc => by
      have := hcap c hc
      dsimp only
      omega
  have hdepth : ({ s with stack := addr :: s.stack } : State).depthOk = true := depthOk_of_hasRoom (hroom _ (by simp))
  have hback : (s.mem.write addr.toNat v).read addr.toNat = v := Memory.read_write_same hwf _ v
  refine ⟨s.slotsOn (s.mem.write addr.toNat v) (v :: s.stack) 8, ?_, rfl, rfl, rfl, rfl, hback,
    fun a ha => Memory.read_write_other hwf v ha⟩
  calc execAll [.push v, .push addr, .stor, .push addr, .load] s
      = execAll [.push v, .push addr, .stor, .push addr, .load] (s.slotsOn s.mem s.stack 0) := by rw [slotsOn_zero]
    _ = execAll [.push addr, .stor, .push addr, .load] (s.slotsOn s.mem (v :: s.stack) 2) :=
      execAll_cons (exec_push_slotsOn v (hslot _ _ 1 (by omega)) (hroom _ (by simp)))
    _ = execAll [.stor, .push addr, .load] (s.slotsOn s.mem (addr :: v :: s.stack) 4) :=
      execAll_cons (exec_push_slotsOn addr (hslot _ _ 3 (by omega)) (hroom _ (by simp)))
    _ = execAll [.push addr, .load] (s.slotsOn (s.mem.write addr.toNat v) s.stack 5) :=
      execAll_cons (exec_stor_slotsOn v haddr)
    _ = execAll [.load] (s.slotsOn (s.mem.write addr.toNat v) (addr :: s.stack) 7) :=
      execAll_cons (exec_push_slotsOn addr (hslot _ _ 6 (by omega)) (hroom _ (by simp)))
    _ = .next (s.slotsOn (s.mem.write addr.toNat v) (v :: s.stack) 8) := by
      rw [execAll_cons (exec_load_slotsOn haddr hdepth), hback]
      rfl

/-! ## The halt idiom -/

/-- A core at a JMP with its own address on top halts in one step (R130, R41). -/
theorem step_of_selfJump (hw : s.cfg.wf = true) (hr : s.rs = .running) (hc : s.cmds = []) (hm : s.inMemory s.ip = true)
    (hop : s.mem.read s.ip.toNat = s.cfg.opcodeMap.jmp) (hs : s.stack = s.ip :: st) :
    ∃ tr, step s = .next { s with trace := tr, stack := st, rs := .halted } := by
  obtain ⟨tr, htr⟩ := traced_eq s
  have hi : s.instrAtIp = .jmp := instrAtIp_of_ne_push (i := .jmp) (opcodeAtIp_of_value (o := .jmp) hw hop) nofun
  refine ⟨tr, ?_⟩
  rw [step_of_fetched hw hr hc hm, hi, htr]
  exact execJmp_of_self (s := { s with trace := tr }) hs (admits_of_inMemory hm)

/-- Settles O58: the PUSH leaves the address of the JMP after it, which then jumps to itself. -/
theorem haltIdiomHaltsInTwoSteps : Obligations.HaltIdiomHaltsInTwoSteps := by
  intro s hw hr hc hroom hlo hhi hprog
  have hpush : s.mem.read s.ip.toNat = s.cfg.opcodeMap.push := by simpa using hprog 0 _ rfl
  have hlit : s.mem.read (s.ip.toNat + s.cfg.stride) = s.ip + BitVec.ofNat 32 (2 * s.cfg.stride) := by
    simpa using hprog 1 _ rfl
  have hjmp : s.mem.read (s.ip.toNat + 2 * s.cfg.stride) = s.cfg.opcodeMap.jmp := hprog 2 _ rfl
  obtain ⟨hcell, hnat⟩ := inMemory_slotsOn (m := s.mem) (st := s.stack) (k := 2) hw hlo hhi
  obtain ⟨tr, htr⟩ := traced_eq s
  have hfirst := pushTakesTheWholeNextSlot s hw hr hc hlo (by omega) hroom hpush
  rw [hlit, htr] at hfirst
  obtain ⟨tr', hsecond⟩ := step_of_selfJump (s := { s with
      trace := tr, stack := (s.ip + BitVec.ofNat 32 (2 * s.cfg.stride)) :: s.stack,
      ip := s.ip + BitVec.ofNat 32 (2 * s.cfg.stride) }) hw hr hc hcell ((congrArg s.mem.read hnat).trans hjmp) rfl
  exact ⟨_, (runSteps_two hfirst).trans hsecond, rfl, rfl, rfl, rfl, rfl, rfl⟩

/-! ## A memory of NOPs -/

/-- In an empty memory every cell is a NOP (R77). -/
theorem step_of_empty (hw : s.cfg.wf = true) (hr : s.rs = .running) (hc : s.cmds = []) (hm : s.mem = [])
    (hip : s.inMemory s.ip = true) : ∃ tr, step s = .next { s with trace := tr, ip := s.ip + s.strideWord } := by
  obtain ⟨tr, htr⟩ := traced_eq s
  have hword : s.mem.read s.ip.toNat = s.cfg.opcodeMap.value .nop := by
    rw [hm, Memory.read_nil, OpcodeMap.value, OpcodeMap.wf_nop (opcodeMap_wf hw)]
  refine ⟨tr, ?_⟩
  rw [step_of_fetched hw hr hc hip, instrAtIp_of_nop (opcodeAtIp_of_value hw hword), htr]
  rfl

/-- A running core goes through the slots of an empty memory, and only the trace and `ip` change. -/
theorem runSteps_of_empty (hw : s.cfg.wf = true) (hr : s.rs = .running) (hc : s.cmds = []) (hm : s.mem = []) (hip : s.ip = 0)
    (hk : k ≤ s.cfg.slotCount) :
    ∃ tr, runSteps k s = .next { s with trace := tr, ip := BitVec.ofNat 32 (k * s.cfg.stride) } := by
  induction k with
  | zero => exact ⟨s.trace, by rw [zero_mul, runSteps_zero, ← show s.ip = BitVec.ofNat 32 0 from hip]⟩
  | succ k ih =>
    obtain ⟨tr, hrun⟩ := ih (by omega)
    have hcell : s.inMemory (BitVec.ofNat 32 (k * s.cfg.stride)) = true := by
      rw [inMemory_iff_toNat hw, Config.toNat_slot hw (by omega)]
      exact Config.slot_lt hw hk
    obtain ⟨tr', hstep⟩ := step_of_empty (s := { s with trace := tr, ip := BitVec.ofNat 32 (k * s.cfg.stride) })
      hw hr hc hm hcell
    refine ⟨tr', ?_⟩
    rw [runSteps_add hrun, runSteps_one, hstep, ← Config.slot_add_stride]
    rfl

/-- Settles O59: after the last slot the fetch fails (R71). -/
theorem emptyProgramRunsOffTheEnd : Obligations.EmptyProgramRunsOffTheEnd := by
  intro s hw hr hc hm hip
  have hend : s.inMemory (BitVec.ofNat 32 (s.cfg.slotCount * s.cfg.stride)) = false := by
    rw [Bool.eq_false_iff, Ne, inMemory_iff_toNat hw, Config.toNat_slot hw le_rfl, Nat.not_lt]
    exact Config.memSize_le_slots hw
  obtain ⟨tr, hrun⟩ := runSteps_of_empty hw hr hc hm hip le_rfl
  have hlast := step_of_not_fetched (s := { s with trace := tr, ip := BitVec.ofNat 32 (s.cfg.slotCount * s.cfg.stride) })
    hw hr (.inl ⟨hc, rfl⟩) hend
  exact ⟨_, (runSteps_add hrun).trans ((runSteps_one _).trans hlast), rfl, rfl, hm, rfl, rfl⟩

end Sys2Proof.Machine
end
